-- ==== Sys2Proof/Word.lean ====
section
/-! DEFINITION. The word types of the ports (spec/00_scope.md R7, R8, R9; spec/10_state.md R44). -/

namespace Sys2Proof

/-- A 64-bit operand or result word, bit 63 the most significant (R52). -/
abbrev Word := BitVec 64

/-- The 32-bit command word (R31, R70). -/
abbrev CmdWord := BitVec 32

end Sys2Proof
end

