-- ==== Sys2Proof/Syntax.lean ====
section
/-! DEFINITION. What crosses the DAU's ports as data: rounding and overflow modes, policies, the 24 operations, commands,
responses and the host's port values (spec/10_state.md R31 to R40, R44; spec/30_encoding.md R78; spec/60_exceptions.md R241). -/

namespace Sys2Proof

/-- The ten rounding-mode values, in the order of R38 and R73. -/
inductive RoundingMode where
  | up | down | ceiling | floor | halfUp | halfDown | halfEven | halfCeiling | halfFloor | unnecessary
  deriving DecidableEq, Repr, Inhabited

/-- The two overflow modes (R39). -/
inductive OverflowMode where
  | unchecked | checked
  deriving DecidableEq, Repr, Inhabited

/-- What a command word says of its policy (R35): DEF = 1 gives `noPolicy`, DEF = 0 gives the pair of its RM and CHK
fields. -/
inductive Policy where
  | noPolicy
  | given (rm : RoundingMode) (om : OverflowMode)
  deriving DecidableEq, Repr, Inhabited

/-- The fields every operation carries in its command word (R70): the scale and the policy. -/
structure Fields where
  /-- SCALE, the number of fractional decimal digits (R72); 0 to 18 in a well-formed instruction. -/
  scale  : Nat
  /-- RM, CHK and DEF (R73 to R75). -/
  policy : Policy
  deriving DecidableEq, Repr, Inhabited

/-- The 24 operations, one constructor per row of spec/opcode_table.json, in the order of R78. The operand words A and B
are not part of the command word: they stand on the ports (R31). -/
inductive Instr where
  | add (f : Fields)
  | sub (f : Fields)
  | mul (f : Fields)
  | mull (f : Fields)
  | div (f : Fields)
  | divl (f : Fields)
  | sqr (f : Fields)
  | sqrt (f : Fields)
  | pow (f : Fields)
  | shl (f : Fields)
  | shr (f : Fields)
  | round (f : Fields)
  | avg (f : Fields)
  | inv (f : Fields)
  | cmp (f : Fields)
  | sgn (f : Fields)
  | divi (f : Fields)
  | rem (f : Fields)
  | divrem (f : Fields)
  | fromlong (f : Fields)
  | fromunsc (f : Fields)
  | fromdbl (f : Fields)
  | tolong (f : Fields)
  | todbl (f : Fields)
  deriving DecidableEq, Repr

/-- The fields of an instruction. -/
def Instr.fields : Instr → Fields
  | .add f | .sub f | .mul f | .mull f | .div f | .divl f | .sqr f | .sqrt f | .pow f | .shl f | .shr f | .round f
  | .avg f | .inv f | .cmp f | .sgn f | .divi f | .rem f | .divrem f | .fromlong f | .fromunsc f | .fromdbl f
  | .tolong f | .todbl f => f

/-- A command (R31): the command word and the two operand words. -/
structure Command where
  word : CmdWord
  a    : Word
  b    : Word
  deriving DecidableEq, Repr, Inhabited

/-- The errors a command can complete with (R240, R241). -/
inductive Err where
  | overflow | divByZero | inexact | incompatibleScale | invalidScale | invalidOperand | illegalCommand
  deriving DecidableEq, Repr, Inhabited

/-- The status of a response: OK or one of the seven errors (R241). -/
inductive Status where
  | ok
  | error (e : Err)
  deriving DecidableEq, Repr, Inhabited

/-- A response (R32): the status and the two result words. -/
structure Response where
  status : Status
  r0     : Word
  r1     : Word
  deriving DecidableEq, Repr, Inhabited

/-- The host's values on the DAU's input ports in one cycle (R44). -/
structure PortIn where
  rst      : Bool
  cmdValid : Bool
  cmdWord  : CmdWord
  cmdA     : Word
  cmdB     : Word
  rspReady : Bool
  deriving DecidableEq, Repr, Inhabited

end Sys2Proof
end

