-- ==== Sys2Proof/WellFormed.lean ====
section
/-! DEFINITION. Which instructions a command word can spell (spec/30_encoding.md R72): the scale is 0 to 18. The rounding and
overflow modes of a policy are legal by their type (R40: all 20 pairs). -/

namespace Sys2Proof

/-- The scale is one of the 19 supported scales (R7, R72, R101). -/
def Fields.wellFormed (f : Fields) : Bool := f.scale ≤ 18

/-- An instruction is well formed when its fields are. -/
def Instr.wellFormed (i : Instr) : Bool := i.fields.wellFormed

end Sys2Proof
end

