-- ==== Sys2Proof/Decode.lean ====
section
/-! DEFINITION. The decoder and the encoder of the command word (spec/30_encoding.md R70 to R80). -/

namespace Sys2Proof

/-- The bit field `w[hi:lo]`, read as an unsigned integer (R9). -/
def cmdField (w : CmdWord) (hi lo : Nat) : Nat := (w.extractLsb hi lo).toNat

/-- Why a command word spells no command: the checks of R80, by name. -/
inductive DecodeError where
  /-- Check 1: a bit of RSVD is set (R76). -/
  | reservedBits
  /-- Check 2: OPC is 0x00 or 0x19 to 0x3F (R79). -/
  | reservedOpcode
  /-- Check 3: DEF = 1 with RM or CHK not 0 (R75). -/
  | policyWithDefault
  /-- Check 4: DEF = 0 with RM 10 to 15 (R73). -/
  | reservedRounding
  /-- Check 5: SCALE is 19 to 31 (R72). -/
  | scaleOutOfRange
  deriving DecidableEq, Repr

/-- The error each failed check completes with (R80, R246, R248). -/
def DecodeError.err : DecodeError → Err
  | .reservedBits => .illegalCommand
  | .reservedOpcode => .illegalCommand
  | .policyWithDefault => .illegalCommand
  | .reservedRounding => .illegalCommand
  | .scaleOutOfRange => .invalidScale

/-- The opcode map (R78): the operation an OPC value selects, or none where it is reserved (R79). -/
def decodeOpcode : Nat → Option (Fields → Instr)
  | 0x01 => some .add
  | 0x02 => some .sub
  | 0x03 => some .mul
  | 0x04 => some .mull
  | 0x05 => some .div
  | 0x06 => some .divl
  | 0x07 => some .sqr
  | 0x08 => some .sqrt
  | 0x09 => some .pow
  | 0x0A => some .shl
  | 0x0B => some .shr
  | 0x0C => some .round
  | 0x0D => some .avg
  | 0x0E => some .inv
  | 0x0F => some .cmp
  | 0x10 => some .sgn
  | 0x11 => some .divi
  | 0x12 => some .rem
  | 0x13 => some .divrem
  | 0x14 => some .fromlong
  | 0x15 => some .fromunsc
  | 0x16 => some .fromdbl
  | 0x17 => some .tolong
  | 0x18 => some .todbl
  | _ => none

/-- The rounding mode an RM value names (R73), or none where it is reserved. -/
def decodeRounding : Nat → Option RoundingMode
  | 0 => some .up
  | 1 => some .down
  | 2 => some .ceiling
  | 3 => some .floor
  | 4 => some .halfUp
  | 5 => some .halfDown
  | 6 => some .halfEven
  | 7 => some .halfCeiling
  | 8 => some .halfFloor
  | 9 => some .unnecessary
  | _ => none

/-- The overflow mode a CHK value names (R74). -/
def decodeOverflow (chk : Nat) : OverflowMode := if chk = 1 then .checked else .unchecked

/-- The policy of a command word, checks 3 and 4 of R80 in their order (R73 to R75). -/
def decodePolicy (rm chk dflt : Nat) : Except DecodeError Policy :=
  if dflt = 1 then
    if rm ≠ 0 ∨ chk ≠ 0 then .error .policyWithDefault else .ok .noPolicy
  else
    match decodeRounding rm with
    | some m => .ok (.given m (decodeOverflow chk))
    | none => .error .reservedRounding

/-- The decoder: total on every command word, its five checks made in the order of R80. -/
def decode (w : CmdWord) : Except DecodeError Instr :=
  if cmdField w 31 17 ≠ 0 then .error .reservedBits
  else
    match decodeOpcode (cmdField w 5 0) with
    | none => .error .reservedOpcode
    | some op =>
      match decodePolicy (cmdField w 14 11) (cmdField w 15 15) (cmdField w 16 16) with
      | .error e => .error e
      | .ok p =>
        if 19 ≤ cmdField w 10 6 then .error .scaleOutOfRange
        else .ok (op { scale := cmdField w 10 6, policy := p })

/-- What the decoder reads from an instruction of `nbits` bits whose bits are `w`, numbered as spec/opcode_table.json numbers
them. A command word has 32 bits and no other length (R70); bits above `nbits` are 0. -/
def decodeTableWord (nbits w : Nat) : Option Instr :=
  if 32 < nbits then none
  else
    match decode (BitVec.ofNat 32 (w % 2 ^ nbits)) with
    | .ok i => some i
    | .error _ => none

/-- The OPC value of an operation (R78). -/
def Instr.opcode : Instr → Nat
  | .add _ => 0x01
  | .sub _ => 0x02
  | .mul _ => 0x03
  | .mull _ => 0x04
  | .div _ => 0x05
  | .divl _ => 0x06
  | .sqr _ => 0x07
  | .sqrt _ => 0x08
  | .pow _ => 0x09
  | .shl _ => 0x0A
  | .shr _ => 0x0B
  | .round _ => 0x0C
  | .avg _ => 0x0D
  | .inv _ => 0x0E
  | .cmp _ => 0x0F
  | .sgn _ => 0x10
  | .divi _ => 0x11
  | .rem _ => 0x12
  | .divrem _ => 0x13
  | .fromlong _ => 0x14
  | .fromunsc _ => 0x15
  | .fromdbl _ => 0x16
  | .tolong _ => 0x17
  | .todbl _ => 0x18

/-- The RM value of a rounding mode (R73). -/
def RoundingMode.code : RoundingMode → Nat
  | .up => 0
  | .down => 1
  | .ceiling => 2
  | .floor => 3
  | .halfUp => 4
  | .halfDown => 5
  | .halfEven => 6
  | .halfCeiling => 7
  | .halfFloor => 8
  | .unnecessary => 9

/-- The CHK value of an overflow mode (R74). -/
def OverflowMode.code : OverflowMode → Nat
  | .unchecked => 0
  | .checked => 1

/-- The RM, CHK and DEF fields of a policy, in their places 14:11, 15 and 16 (R70, R73 to R75). -/
def Policy.bits : Policy → Nat
  | .noPolicy => 2 ^ 16
  | .given rm om => rm.code * 2 ^ 11 + om.code * 2 ^ 15

/-- The encoder: the command word of an instruction, OPC at 5:0, SCALE at 10:6, the policy above it, RSVD zero (R70). -/
def encode (i : Instr) : CmdWord :=
  BitVec.ofNat 32 (i.opcode + i.fields.scale * 2 ^ 6 + i.fields.policy.bits)

end Sys2Proof
end

