-- ==== Sys2Proof/Config.lean ====
section
/-! DEFINITION. What an implementation of the DAU fixes, and the values the spec leaves open (spec/93_implementation_defined.md
I2 to I7; spec/92_eei_decisions.md D21, D22). Every constant here is opaque and has no body: a statement about the model holds
for every value of it. -/

namespace Sys2Proof

/-- DEPTH less one (log entry 1). -/
opaque Config.depthPred : Nat

/-- DEPTH, the most commands in flight at once, at least 1 (R8, R275, I6). -/
def Config.depth : Nat := Config.depthPred + 1

/-- LATENCY_MAX less one (log entry 1). -/
opaque Config.latencyMaxPred : Nat

/-- LATENCY_MAX, the most cycles from acceptance to a valid response once earlier responses are taken, at least 1
(R8, R276, I7). -/
def Config.latencyMax : Nat := Config.latencyMaxPred + 1

/-- FREE VALUE (I5): the draw that decides a command's latency, at each value of the draw counter. -/
opaque Config.latencyDraw : Nat → Nat

/-- FREE VALUE (I4): for how many further cycles the DAU does not offer `cmd_ready`, at each value of the draw counter. -/
opaque Config.readyDelay : Nat → Nat

/-- FREE VALUE (I2): `cmd_ready` in a cycle in which `rst` = 1. -/
opaque Config.readyInReset : Nat → Bool

/-- FREE VALUE (I3): `rsp_status` in a cycle in which `rsp_valid` = 0. -/
opaque Config.idleStatus : Nat → BitVec 3

/-- FREE VALUE (I3): `rsp_r0` in a cycle in which `rsp_valid` = 0. -/
opaque Config.idleR0 : Nat → Word

/-- FREE VALUE (I3): `rsp_r1` in a cycle in which `rsp_valid` = 0. -/
opaque Config.idleR1 : Nat → Word

/-- FREE VALUE (log entry 4): what the host drives on the input ports in a cycle its script says nothing about. -/
opaque Config.hostInputs : Nat → PortIn

end Sys2Proof
end

