-- ==== Sys2Proof/Machine/State.lean ====
section
/-! DEFINITION. The state of the DAU and of its ports: plain data (spec/10_state.md R42, R44, R45; spec/70_reset_and_hazards.md
R271). -/

namespace Sys2Proof.Machine

/-- A command in flight (R42): the command as it was accepted and the response it completes with. A response is a function of
its command alone (R56), so when inside the DAU it is computed cannot be observed (R57; DESIGN CHOICE, log entry 10). -/
structure InFlight where
  command  : Command
  response : Response
  deriving DecidableEq, Repr

/-- The DAU between two rising edges of `clk`: its ports in the current cycle and the commands in flight. -/
structure State where
  /-- The input ports `rst`, `cmd_valid`, `cmd_word`, `cmd_a`, `cmd_b`, `rsp_ready` (R44). -/
  ins       : PortIn
  /-- The output port `cmd_ready` (R44, R275). -/
  cmdReady  : Bool
  /-- The output port `rsp_valid` (R44, R273). -/
  rspValid  : Bool
  /-- The output port `rsp_status` (R44, R241); a free value while `rspValid` is false (I3). -/
  rspStatus : BitVec 3
  /-- The output port `rsp_r0` (R44, R33); a free value while `rspValid` is false (I3). -/
  rspR0     : Word
  /-- The output port `rsp_r1` (R44, R33); a free value while `rspValid` is false (I3). -/
  rspR1     : Word
  /-- The commands in flight, oldest first (R42, R274). -/
  inFlight  : List InFlight
  /-- Cycles until the oldest command's response is presented: what is left of its latency (R276, I5). -/
  headWait  : Nat
  /-- Cycles until the DAU next offers `cmd_ready`: what is left of that draw (R275, I4). -/
  readyWait : Nat
  /-- THE MODEL'S OWN: the host's port values in the coming cycles (R279); after its end `Config.hostInputs` decides. -/
  script    : List PortIn
  /-- THE MODEL'S OWN: the counter the free values are drawn at. -/
  cycle     : Nat
  deriving DecidableEq, Repr

/-- The reasons a step stops with a fault: there are none. The DAU never stops on an error (R252, R280): every error is the
status of its own response, and the machine goes on (DEDUCED, log entry 17). -/
inductive Fault where
  deriving DecidableEq, Repr

/-- The reasons a step is refused. -/
inductive Refusal where
  /-- An instruction whose arm in `exec` has no meaning yet; safe. No arm answers it: all 24 rows have their meaning. -/
  | notModelled (mnemonic : String)
  deriving DecidableEq, Repr

/-- The outcome of a step. -/
abbrev Outcome := Host.Outcome State Fault Refusal

/-- A host that drives nothing: no reset, no command, no response taken. -/
def quietPorts : PortIn :=
  { rst := false, cmdValid := false, cmdWord := 0, cmdA := 0, cmdB := 0, rspReady := false }

/-- The machine after the last reset edge (R45, R271): nothing in flight and `rsp_valid` = 0. The values of the ports the
spec leaves open there are those of log entries 2 and 3. -/
def State.reset : State :=
  { ins := quietPorts
    cmdReady := true
    rspValid := false
    rspStatus := 0
    rspR0 := 0
    rspR1 := 0
    inFlight := []
    headWait := 0
    readyWait := 0
    script := []
    cycle := 0 }

end Sys2Proof.Machine
end

