-- ==== Sys2Proof/Machine/Datapath.lean ====
section
/-! DEFINITION. The five datapath components (spec/40_datapath.md) and the integer and width helpers they use
(spec/00_scope.md R11, R12). All arithmetic is on unbounded integers (R10); widths enter only at `wrap64` and `bits64`. -/

namespace Sys2Proof.Machine

/-- What an operation answers before it is made a response: the two result words, or the error it raises (R13). -/
abbrev Result := Except Err (Word × Word)

/-! ## Integer and width helpers -/

/-- INT64_MIN (R11). -/
def int64Min : Int := -9223372036854775808

/-- INT64_MAX (R11). -/
def int64Max : Int := 9223372036854775807

/-- A word read as a two's-complement signed integer (R9). -/
def sint64 (v : Word) : Int := v.toInt

/-- The word of an integer modulo 2^64 (R12). -/
def bits64 (v : Int) : Word := BitVec.ofInt 64 v

/-- The signed 64-bit integer congruent to `v` modulo 2^64 (R12). -/
def wrap64 (v : Int) : Int := (v + 2 ^ 63) % 2 ^ 64 - 2 ^ 63

/-- The quotient truncated toward zero (R11). -/
def tdiv (n d : Int) : Int := Int.tdiv n d

/-- The remainder of the truncated quotient (R11). -/
def tmod (n d : Int) : Int := n - d * tdiv n d

/-- The bits of the integer square root of `n` from bit `bits - 1` down, added to the part `r` already found: a bit is kept
when the square stays at most `n`. -/
def isqrtFrom (n : Nat) : (bits : Nat) → (r : Nat) → Nat
  | 0, r => r
  | bits + 1, r =>
    if (r + 2 ^ bits) * (r + 2 ^ bits) ≤ n then isqrtFrom n bits (r + 2 ^ bits) else isqrtFrom n bits r

/-- The largest `r` with `r * r ≤ n` (R11), for `n` below 2^128: the radicands of SQRT are below 2^123 (R171; log entry 19). -/
def isqrt (n : Nat) : Nat := isqrtFrom n 64 0

/-! ## Scale metrics (R100 to R106) -/

/-- `pow10(k)` as an integer (R11). -/
def pow10 (k : Nat) : Int := 10 ^ k

/-- `pow2(k)` as an integer (R11). -/
def pow2 (k : Nat) : Int := 2 ^ k

/-- One entry of the scale-metrics table (R100, R105). -/
structure ScaleMetrics where
  scaleFactor     : Int
  maxIntegerValue : Int
  minIntegerValue : Int
  deriving DecidableEq, Repr

/-- The entry of scale `s`, by its definition (R100, R105). -/
def scaleEntry (s : Nat) : ScaleMetrics :=
  { scaleFactor := pow10 s
    maxIntegerValue := int64Max / pow10 s
    minIntegerValue := tdiv int64Min (pow10 s) }

/-- The scale-metrics table: a constant of 19 entries, scales 0 to 18 (R41, R101). -/
def scaleMetricsTable : List ScaleMetrics := (List.range 19).map scaleEntry

/-- A request for the metrics of an integer scale; outside 0 to 18 it fails with InvalidScale (R101, R246). -/
def scaleMetrics (t : Int) : Except Err ScaleMetrics :=
  if t < 0 then .error .invalidScale
  else
    match scaleMetricsTable[t.toNat]? with
    | some m => .ok m
    | none => .error .invalidScale

/-- `multiplyByScaleFactor` at scale `s`, exact (R102). -/
def multiplyByScaleFactor (s : Nat) (x : Int) : Int := x * pow10 s

/-- `divideByScaleFactor` at scale `s`: the truncated quotient, with no reciprocal constants (R103, R106). -/
def divideByScaleFactor (s : Nat) (x : Int) : Int := tdiv x (pow10 s)

/-- `moduloByScaleFactor` at scale `s` (R104). -/
def moduloByScaleFactor (s : Nat) (x : Int) : Int := x - tdiv x (pow10 s) * pow10 s

/-! ## Multiplier (R107) -/

/-- The exact product of two signed 64-bit integers (R107). -/
def mul128 (x y : Int) : Int := x * y

/-! ## Divider (R108, R109) -/

/-- The truncated quotient, whole, and the exact remainder of a division by a nonzero divisor (R108, R109, C10). -/
def divider (n d : Int) : Int × Int := (tdiv n d, n - tdiv n d * d)

/-! ## Rounding selector (R110 to R116) -/

/-- The position of the discarded fraction relative to one half (R112). -/
inductive RemainderClass where
  | zero | ltHalf | half | gtHalf
  deriving DecidableEq, Repr

/-- The remainder class of remainder `r` and divisor `d` (R112). -/
def remainderClass (r d : Int) : RemainderClass :=
  if r = 0 then .zero
  else if 2 * |r| < |d| then .ltHalf
  else if 2 * |r| = |d| then .half
  else .gtHalf

/-- What the rounding selector answers (R110): the increment, and whether the result is inexact under UNNECESSARY. -/
structure RoundSel where
  inc     : Int
  inexact : Bool
  deriving DecidableEq, Repr

/-- The increment of a mode that rounds toward plus infinity: +1 for a positive result, else 0 (R113). -/
def towardPlus (sg : Int) : Int := if 0 < sg then 1 else 0

/-- The increment of a mode that rounds toward minus infinity: -1 for a negative result, else 0 (R113). -/
def towardMinus (sg : Int) : Int := if sg < 0 then -1 else 0

/-- The increment of a rounding discipline for a class that is not ZERO: the rows of R113's table but the last. The last row,
UNNECESSARY, gives `inexact` = 1 and no increment; the 0 here is the model's (DESIGN CHOICE, log entry 21) and `applyRounding`
never reads it. -/
def roundingIncrement : RoundingMode → (sg : Int) → (qodd : Bool) → RemainderClass → Int
  | .up, sg, _, _ => sg
  | .down, _, _, _ => 0
  | .ceiling, sg, _, _ => towardPlus sg
  | .floor, sg, _, _ => towardMinus sg
  | .halfUp, sg, _, .half => sg
  | .halfDown, _, _, .half => 0
  | .halfEven, sg, qodd, .half => if qodd then sg else 0
  | .halfCeiling, sg, _, .half => towardPlus sg
  | .halfFloor, sg, _, .half => towardMinus sg
  | .halfUp, sg, _, .gtHalf => sg
  | .halfDown, sg, _, .gtHalf => sg
  | .halfEven, sg, _, .gtHalf => sg
  | .halfCeiling, sg, _, .gtHalf => sg
  | .halfFloor, sg, _, .gtHalf => sg
  | .halfUp, _, _, .ltHalf => 0
  | .halfDown, _, _, .ltHalf => 0
  | .halfEven, _, _, .ltHalf => 0
  | .halfCeiling, _, _, .ltHalf => 0
  | .halfFloor, _, _, .ltHalf => 0
  | .halfUp, _, _, .zero => 0
  | .halfDown, _, _, .zero => 0
  | .halfEven, _, _, .zero => 0
  | .halfCeiling, _, _, .zero => 0
  | .halfFloor, _, _, .zero => 0
  | .unnecessary, _, _, _ => 0

/-- The rounding selector `roundSel` (R110, R113, R114): its inputs are the mode, the sign of the exact result (R111, C3), the
parity of the truncated quotient (R115) and the remainder class. -/
def roundSel (rm : RoundingMode) (sg : Int) (qodd : Bool) (cls : RemainderClass) : RoundSel :=
  if cls = .zero then { inc := 0, inexact := false }
  else { inc := roundingIncrement rm sg qodd cls, inexact := decide (rm = .unnecessary) }

/-- The value `q` with the selector's increment added, or INEXACT (R114). -/
def applyRounding (q : Int) (sel : RoundSel) : Except Err Int :=
  if sel.inexact then .error .inexact else .ok (q + sel.inc)

/-- `RoundDiv(N, D, rm)`, the rounding law of the whole unit (R116, R119); the caller has checked `d ≠ 0` (R108). -/
def roundDiv (n d : Int) (rm : RoundingMode) : Except Err Int :=
  applyRounding (divider n d).1
    (roundSel rm (n.sign * d.sign) (decide ((divider n d).1 % 2 = 1)) (remainderClass (divider n d).2 d))

/-! ## Overflow detector (R117) -/

/-- The value lies in the signed 64-bit range. -/
def fits64 (v : Int) : Bool := int64Min ≤ v && v ≤ int64Max

/-- `Fit(v, chk)`: the value where it fits; else OVERFLOW under CHECKED, the wrapped value under UNCHECKED (R117, R39). -/
def fit (v : Int) (om : OverflowMode) : Except Err Int :=
  if fits64 v then .ok v
  else
    match om with
    | .checked => .error .overflow
    | .unchecked => .ok (wrap64 v)

/-- Round, then range-check: the order inside one rounding step (R118). -/
def roundFit (n d : Int) (rm : RoundingMode) (om : OverflowMode) : Except Err Int :=
  match roundDiv n d rm with
  | .error e => .error e
  | .ok v => fit v om

/-! ## Answers (R13, R33) -/

/-- `respond(r0, r1)` of integer results (R13). -/
def respond2 (r0 r1 : Int) : Result := .ok (bits64 r0, bits64 r1)

/-- `respond(r0)`: a single result, R1 = 0 (R13, R33). -/
def respond1 (r0 : Int) : Result := respond2 r0 0

/-- The single result of a step that may have raised an error. -/
def respondWith : Except Err Int → Result
  | .error e => .error e
  | .ok v => respond1 v

end Sys2Proof.Machine
end

