-- ==== Sys2Proof/Machine/Operands.lean ====
section
/-! DEFINITION. How a command's policy and operand words are read (spec/10_state.md R35 to R37; spec/20_memory.md R52, R54;
spec/30_encoding.md R77). Integer operands are read with `sint64` (Machine/Datapath.lean). -/

namespace Sys2Proof.Machine

/-- The pair (rm, chk) an operation runs under (R35). -/
structure EffectivePolicy where
  rm : RoundingMode
  om : OverflowMode
  deriving DecidableEq, Repr

/-- The default policy of every operation but the shifts: (HALF_UP, UNCHECKED) (R36). -/
def generalDefault : EffectivePolicy := { rm := .halfUp, om := .unchecked }

/-- The default policy of SHL and SHR: (FLOOR, UNCHECKED) (R37). -/
def shiftDefault : EffectivePolicy := { rm := .floor, om := .unchecked }

/-- The effective policy: the given one, or the operation's default where the command supplies none (R35). -/
def effectivePolicy (dflt : EffectivePolicy) : Policy → EffectivePolicy
  | .noPolicy => dflt
  | .given rm om => { rm := rm, om := om }

/-- The effective policy of every operation but the shifts. -/
def generalPolicy (f : Fields) : EffectivePolicy := effectivePolicy generalDefault f.policy

/-- The effective policy of SHL and SHR. -/
def shiftPolicy (f : Fields) : EffectivePolicy := effectivePolicy shiftDefault f.policy

/-- The three fields of a binary64 bit pattern (R54, I1; PRESUMED by the spec itself, log entry 14). -/
structure Binary64 where
  /-- S, bit 63. -/
  sign     : Bool
  /-- E, bits 62:52, the biased exponent. -/
  exponent : Nat
  /-- F, bits 51:0. -/
  fraction : Nat
  deriving DecidableEq, Repr

/-- A word read as a binary64 bit pattern (R54). -/
def binary64Of (v : Word) : Binary64 :=
  { sign := v.getLsbD 63
    exponent := (v.extractLsb 62 52).toNat
    fraction := (v.extractLsb 51 0).toNat }

/-- The word of a binary64 pattern's fields: S at bit 63, E at 62:52, F at 51:0 (R54). -/
def binary64Word (sign : Bool) (exponent fraction : Int) : Word :=
  BitVec.ofBool sign ++ (BitVec.ofInt 11 exponent ++ BitVec.ofInt 52 fraction : BitVec 63)

/-- The significand and the power of two of a finite binary64 pattern: its value is `m * 2^k` exactly (R54, R212). -/
def binary64Value (d : Binary64) : Int × Int :=
  let m : Int := if d.exponent = 0 then d.fraction else 2 ^ 52 + d.fraction
  let k : Int := if d.exponent = 0 then -1074 else (d.exponent : Int) - 1075
  (if d.sign then -m else m, k)

end Sys2Proof.Machine
end

