-- ==== Sys2Proof/Machine/Flags.lean ====
section
/-! DEFINITION. The status output: the DAU has no flags, so the 3-bit status of a response is its only condition output
(spec/60_exceptions.md R240, R241, R251; spec/10_state.md R33). -/

namespace Sys2Proof.Machine

/-- The status code of an error (R241). -/
def errCode : Err → BitVec 3
  | .overflow => 1
  | .divByZero => 2
  | .inexact => 3
  | .incompatibleScale => 4
  | .invalidScale => 5
  | .invalidOperand => 6
  | .illegalCommand => 7

/-- The 3-bit status code (R241). -/
def statusCode : Status → BitVec 3
  | .ok => 0
  | .error e => errCode e

/-- The response of a command that raises an error: no partial results, R0 = R1 = 0 (R33, R251). -/
def errorResponse (e : Err) : Response := { status := .error e, r0 := 0, r1 := 0 }

/-- The response of a command that completes with status OK (R33). -/
def okResponse (r0 r1 : Word) : Response := { status := .ok, r0 := r0, r1 := r1 }

/-- The response an operation's result makes (R13, R32). -/
def responseOf : Result → Response
  | .ok (r0, r1) => okResponse r0 r1
  | .error e => errorResponse e

end Sys2Proof.Machine
end

