-- ==== Sys2Proof/Machine/Ops.lean ====
section
/-! DEFINITION. The named operations on the state: what a rising edge of `clk` does to the ports and to the commands in flight
(spec/70_reset_and_hazards.md R270 to R276). -/

namespace Sys2Proof.Machine

/-- The command standing on the command port (R31, R44). -/
def presented (s : State) : Command := { word := s.ins.cmdWord, a := s.ins.cmdA, b := s.ins.cmdB }

/-- The command on the port is accepted at this edge: `rst` = 0, `cmd_valid` = 1, `cmd_ready` = 1 (R273). -/
def accepts (s : State) : Bool := !s.ins.rst && s.ins.cmdValid && s.cmdReady

/-- The presented response is taken at this edge: `rst` = 0, `rsp_valid` = 1, `rsp_ready` = 1 (R273). -/
def takes (s : State) : Bool := !s.ins.rst && s.ins.rspReady && s.rspValid

/-- The accepted command joins the commands in flight behind all earlier ones, with the response it completes with (R42, R274);
its operand words are sampled whole from the ports (R55, R273). -/
def completeWith (r : Response) (s : State) : State :=
  { s with inFlight := s.inFlight ++ [{ command := presented s, response := r }] }

/-- An operation's result completes the command on the port. -/
def complete (r : Result) (s : State) : State := completeWith (responseOf r) s

/-- An error completes the command on the port. This is all that an error does: it saves no state, changes no mode and goes
nowhere, and the DAU takes the next command as usual (R252, R253). -/
def raiseError (e : Err) (s : State) : State := completeWith (errorResponse e) s

/-- The host's port values in the next cycle: the next of its script, or the free value where the script says nothing. -/
def nextInputs (s : State) : PortIn :=
  match s.script with
  | [] => Config.hostInputs s.cycle
  | p :: _ => p

/-- The wait before the DAU next offers `cmd_ready`, after one more cycle: a fresh draw once the last one is used up (R275;
DESIGN CHOICE, log entry 7). -/
def nextReadyWait (s : State) : Nat :=
  match s.readyWait with
  | 0 => Config.readyDelay s.cycle
  | n + 1 => n

/-- `cmd_ready` in the next cycle: any value while `rst` = 1 (I2); 0 while DEPTH commands are in flight; else 1 once the
drawn wait is over (R275, I4; log entries 7 and 8). -/
def nextCmdReady (s : State) (rst : Bool) (inFlight : List InFlight) : Bool :=
  if rst then Config.readyInReset s.cycle
  else decide (inFlight.length < Config.depth) && nextReadyWait s == 0

/-- A latency draw, less the one cycle every command takes: a value in 0 .. LATENCY_MAX - 1 (R8, R276, I5;
DESIGN CHOICE, log entry 6). -/
def latencyWait (s : State) : Nat := Config.latencyDraw s.cycle % Config.latencyMax

/-- The cycle after an edge at which `inFlight` are the commands in flight and `wait` is what is left of the oldest one's
latency. Its response is presented when the wait is over, and held until it is taken (R273, R274); while nothing is presented
the response ports carry free values (I3, log entry 9). -/
def nextCycle (s : State) (inFlight : List InFlight) (wait : Nat) : State :=
  { ins := nextInputs s
    cmdReady := nextCmdReady s (nextInputs s).rst inFlight
    rspValid := !inFlight.isEmpty && wait == 0
    rspStatus :=
      match inFlight, wait with
      | h :: _, 0 => statusCode h.response.status
      | _, _ => Config.idleStatus s.cycle
    rspR0 :=
      match inFlight, wait with
      | h :: _, 0 => h.response.r0
      | _, _ => Config.idleR0 s.cycle
    rspR1 :=
      match inFlight, wait with
      | h :: _, 0 => h.response.r1
      | _, _ => Config.idleR1 s.cycle
    inFlight := inFlight
    headWait := wait
    readyWait := nextReadyWait s
    script := s.script.tail
    cycle := s.cycle + 1 }

/-- An edge with `rst` = 1: every command in flight is discarded without a response, whether or not its response was already
being presented (R270, R271). -/
def resetEdge (s : State) : State := nextCycle s [] 0

/-- The commands in flight after an edge with `rst` = 0 that leaves `inFlight` behind it: the oldest is gone when its response is
taken (R275: a command is in flight until then). -/
def afterTake (s : State) (inFlight : List InFlight) : List InFlight :=
  if takes s then inFlight.tail else inFlight

/-- What is left of the oldest command's latency after an edge with `rst` = 0: none when nothing is in flight; a fresh draw for
a command that has just become the oldest (accepted into an idle DAU, or its predecessor's response taken, R276); else one
cycle less. -/
def afterWait (s : State) (inFlight : List InFlight) : Nat :=
  if inFlight.isEmpty then 0
  else if takes s || s.inFlight.isEmpty then latencyWait s
  else s.headWait - 1

/-- The rest of an edge with `rst` = 0: `s` is the state before it, `t` the state with the accepted command, if any, added. -/
def finishEdge (s t : State) : State :=
  nextCycle s (afterTake s t.inFlight) (afterWait s (afterTake s t.inFlight))

end Sys2Proof.Machine
end

