-- ==== Sys2Proof/Machine/AddSub.lean ====
section
/-! DEFINITION. Addition and subtraction (spec/41_add_subtract.md R140, R141). -/

namespace Sys2Proof.Machine

/-- ADD: `Fit(a + b, chk)` (R140). -/
def addResult (f : Fields) (A B : Word) : Result :=
  respondWith (fit (sint64 A + sint64 B) (generalPolicy f).om)

/-- SUB: `Fit(a - b, chk)` (R141, C7). -/
def subResult (f : Fields) (A B : Word) : Result :=
  respondWith (fit (sint64 A - sint64 B) (generalPolicy f).om)

/-- ADD (R140). -/
def execAdd (f : Fields) (s : State) : Outcome := .next (complete (addResult f s.ins.cmdA s.ins.cmdB) s)

/-- SUB (R141). -/
def execSub (f : Fields) (s : State) : Outcome := .next (complete (subResult f s.ins.cmdA s.ins.cmdB) s)

end Sys2Proof.Machine
end

