-- ==== Sys2Proof/Machine/Divide.lean ====
section
/-! DEFINITION. Division (spec/43_divide.md R160, R161). -/

namespace Sys2Proof.Machine

/-- A division with its zero test made first, under every policy (R160, R161, R243). -/
def checkedDivision (n d : Int) (p : EffectivePolicy) : Except Err Int :=
  if d = 0 then .error .divByZero else roundFit n d p.rm p.om

/-- DIV: the numerator is `a * 10^s` (R160). -/
def divResult (f : Fields) (A B : Word) : Result :=
  respondWith (checkedDivision (multiplyByScaleFactor f.scale (sint64 A)) (sint64 B) (generalPolicy f))

/-- DIVL: the numerator is `a`; the scale does not enter (R161). -/
def divlResult (f : Fields) (A B : Word) : Result :=
  respondWith (checkedDivision (sint64 A) (sint64 B) (generalPolicy f))

/-- DIV (R160). -/
def execDiv (f : Fields) (s : State) : Outcome := .next (complete (divResult f s.ins.cmdA s.ins.cmdB) s)

/-- DIVL (R161). -/
def execDivl (f : Fields) (s : State) : Outcome := .next (complete (divlResult f s.ins.cmdA s.ins.cmdB) s)

end Sys2Proof.Machine
end

