-- ==== Sys2Proof/Machine/Multiply.lean ====
section
/-! DEFINITION. Multiplication (spec/42_multiply.md R150, R151). -/

namespace Sys2Proof.Machine

/-- The whole of MUL's rule on two integers at scale `s`: the exact product, divided by 10^s with the rounding law, then
range-checked (R150). POW's MULSTEP is the same (R172). -/
def mulStep (s : Nat) (p : EffectivePolicy) (x y : Int) : Except Err Int :=
  roundFit (mul128 x y) (pow10 s) p.rm p.om

/-- MUL (R150). -/
def mulResult (f : Fields) (A B : Word) : Result :=
  respondWith (mulStep f.scale (generalPolicy f) (sint64 A) (sint64 B))

/-- MULL: the integer operand is already at scale 0, so no rescale and no rounding (R151). -/
def mullResult (f : Fields) (A B : Word) : Result :=
  respondWith (fit (mul128 (sint64 A) (sint64 B)) (generalPolicy f).om)

/-- MUL (R150). -/
def execMul (f : Fields) (s : State) : Outcome := .next (complete (mulResult f s.ins.cmdA s.ins.cmdB) s)

/-- MULL (R151). -/
def execMull (f : Fields) (s : State) : Outcome := .next (complete (mullResult f s.ins.cmdA s.ins.cmdB) s)

end Sys2Proof.Machine
end

