-- ==== Sys2Proof/Machine/SquarePow.lean ====
section
/-! DEFINITION. Square, square root, integer power, and the inversion POW uses (spec/44_square_sqrt_pow.md R170 to R172;
spec/46_avg_invert_compare.md R191). -/

namespace Sys2Proof.Machine

/-- The inversion of `a` at scale `s`: `10^(2s) / a` (R191). -/
def invStep (s : Nat) (p : EffectivePolicy) (a : Int) : Except Err Int := checkedDivision (pow10 (2 * s)) a p

/-- SQR (R170). -/
def sqrResult (f : Fields) (A : Word) : Result :=
  respondWith (roundFit (mul128 (sint64 A) (sint64 A)) (pow10 f.scale) (generalPolicy f).rm (generalPolicy f).om)

/-- The remainder class of a square root `r` with `rem = N - r * r`; HALF never occurs (R171). -/
def sqrtClass (r rem : Int) : RemainderClass :=
  if rem = 0 then .zero else if rem ≤ r then .ltHalf else .gtHalf

/-- The rounded square root of a radicand `n` (R171). -/
def sqrtRounded (n : Nat) (rm : RoundingMode) : Except Err Int :=
  applyRounding (isqrt n)
    (roundSel rm 1 (decide ((isqrt n : Int) % 2 = 1)) (sqrtClass (isqrt n) ((n : Int) - isqrt n * isqrt n)))

/-- SQRT (R171, C6). -/
def sqrtResult (f : Fields) (A : Word) : Result :=
  if sint64 A < 0 then .error .invalidOperand
  else respondWith (sqrtRounded (multiplyByScaleFactor f.scale (sint64 A)).toNat (generalPolicy f).rm)

/-- POW's loop (R172), least significant exponent bit first: `m` is what is left of the exponent. A squaring is skipped after
the last set bit. An exponent is at most 2^63, so 64 rounds end it (log entry 19). -/
def powLoop (s : Nat) (p : EffectivePolicy) : (rounds : Nat) → (m : Nat) → (base acc : Int) → Except Err Int
  | 0, _, _, acc => .ok acc
  | rounds + 1, m, base, acc =>
    match (if m % 2 = 1 then mulStep s p acc base else .ok acc) with
    | .error e => .error e
    | .ok acc' =>
      if m / 2 = 0 then .ok acc'
      else
        match mulStep s p base base with
        | .error e => .error e
        | .ok base' => powLoop s p rounds (m / 2) base' acc'

/-- The base POW's loop starts from: `a`, or its inversion under the same policy for a negative exponent (R172, D13). -/
def powBase (s : Nat) (p : EffectivePolicy) (a n : Int) : Except Err Int :=
  if n < 0 then invStep s p a else .ok a

/-- The value of POW (R172): ONE for exponent 0, else the loop from accumulator ONE. -/
def powValue (s : Nat) (p : EffectivePolicy) (a n : Int) : Except Err Int :=
  if n = 0 then .ok (pow10 s)
  else
    match powBase s p a n with
    | .error e => .error e
    | .ok base => powLoop s p 64 n.natAbs base (pow10 s)

/-- POW (R172). -/
def powResult (f : Fields) (A B : Word) : Result :=
  respondWith (powValue f.scale (generalPolicy f) (sint64 A) (sint64 B))

/-- SQR (R170). -/
def execSqr (f : Fields) (s : State) : Outcome := .next (complete (sqrResult f s.ins.cmdA) s)

/-- SQRT (R171). -/
def execSqrt (f : Fields) (s : State) : Outcome := .next (complete (sqrtResult f s.ins.cmdA) s)

/-- POW (R172). -/
def execPow (f : Fields) (s : State) : Outcome := .next (complete (powResult f s.ins.cmdA s.ins.cmdB) s)

end Sys2Proof.Machine
end

