-- ==== Sys2Proof/Machine/AvgInvCmp.lean ====
section
/-! DEFINITION. Average, inversion, comparison and sign (spec/46_avg_invert_compare.md R190 to R193). -/

namespace Sys2Proof.Machine

/-- AVG: the exact sum halved with the rounding law; never out of range, so there is no range check (R190). -/
def avgResult (f : Fields) (A B : Word) : Result :=
  respondWith (roundDiv (sint64 A + sint64 B) 2 (generalPolicy f).rm)

/-- INV: `10^(2s) / a` (R191). -/
def invResult (f : Fields) (A : Word) : Result := respondWith (invStep f.scale (generalPolicy f) (sint64 A))

/-- CMP: the sign of the exact difference, -1, 0 or +1 (R192, D31). -/
def cmpResult (A B : Word) : Result := respond1 (sint64 A - sint64 B).sign

/-- SGN: the sign of `a` (R193, D31). -/
def sgnResult (A : Word) : Result := respond1 (sint64 A).sign

/-- AVG (R190). -/
def execAvg (f : Fields) (s : State) : Outcome := .next (complete (avgResult f s.ins.cmdA s.ins.cmdB) s)

/-- INV (R191). -/
def execInv (f : Fields) (s : State) : Outcome := .next (complete (invResult f s.ins.cmdA) s)

/-- CMP (R192): ignores its policy and its scale. -/
def execCmp (_f : Fields) (s : State) : Outcome := .next (complete (cmpResult s.ins.cmdA s.ins.cmdB) s)

/-- SGN (R193): ignores its policy and its scale. -/
def execSgn (_f : Fields) (s : State) : Outcome := .next (complete (sgnResult s.ins.cmdA) s)

end Sys2Proof.Machine
end

