-- ==== Sys2Proof/Machine/Convert.lean ====
section
/-! DEFINITION. Conversions (spec/48_conversions.md R210 to R214). -/

namespace Sys2Proof.Machine

/-- FROMLONG: `Fit(n * 10^s, chk)` (R210). -/
def fromlongResult (f : Fields) (A : Word) : Result :=
  respondWith (fit (multiplyByScaleFactor f.scale (sint64 A)) (generalPolicy f).om)

/-- The value `a` at scale `t` brought to scale `s`: unchanged, rounded when digits go, multiplied when digits come (R211). -/
def rescale (a : Int) (t s : Nat) (p : EffectivePolicy) : Except Err Int :=
  if t = s then .ok a
  else if s < t then roundFit a (pow10 (t - s)) p.rm p.om
  else fit (a * pow10 (s - t)) p.om

/-- FROMUNSC: the source scale must have scale metrics, else INVALID_SCALE before anything else (R211, R101, D17). -/
def fromunscResult (f : Fields) (A B : Word) : Result :=
  match scaleMetrics (sint64 B) with
  | .error e => .error e
  | .ok _ => respondWith (rescale (sint64 A) (sint64 B).toNat f.scale (generalPolicy f))

/-- The exact value `m * 2^k` times 10^s, rounded to an integer where `k` is negative (R212). -/
def scaleDouble (m k : Int) (s : Nat) (rm : RoundingMode) : Except Err Int :=
  if 0 ≤ k then .ok (multiplyByScaleFactor s (m * pow2 k.toNat))
  else roundDiv (multiplyByScaleFactor s m) (pow2 (-k).toNat) rm

/-- The value of FROMDBL for a finite pattern: scaled and rounded, then range-checked (R212). -/
def fromdblValue (d : Binary64) (s : Nat) (p : EffectivePolicy) : Except Err Int :=
  match scaleDouble (binary64Value d).1 (binary64Value d).2 s p.rm with
  | .error e => .error e
  | .ok v => fit v p.om

/-- FROMDBL: an infinity or a NaN is INVALID_OPERAND under every policy (R212, D18). -/
def fromdblResult (f : Fields) (A : Word) : Result :=
  if (binary64Of A).exponent = 2047 then .error .invalidOperand
  else respondWith (fromdblValue (binary64Of A) f.scale (generalPolicy f))

/-- TOLONG: `RoundDiv(a, 10^s, rm)`; never out of range, so there is no range check (R213, D20). -/
def tolongResult (f : Fields) (A : Word) : Result :=
  respondWith (roundDiv (sint64 A) (pow10 f.scale) (generalPolicy f).rm)

/-- The integer `e` with `2^e ≤ |a| / 10^s < 2^(e+1)`, for `a ≠ 0` and a scale up to 18 (R214): `|a| / 10^s` is above 2^-60, so
`|a| * 2^60 / 10^s` is at least 1 and its integer part has the same leading bit. -/
def binaryExponent (a : Int) (s : Nat) : Int := (Nat.log2 (a.natAbs * 2 ^ 60 / 10 ^ s) : Int) - 60

/-- The signed 53-bit significand of `a * 10^-s` at the unit `2^t`, rounded (R214). -/
def significand (a : Int) (s : Nat) (t : Int) (rm : RoundingMode) : Except Err Int :=
  if 0 ≤ t then roundDiv a (pow10 s * pow2 t.toNat) rm else roundDiv (a * pow2 (-t).toNat) (pow10 s) rm

/-- The pattern of a nonzero significand `sg` at the unit `2^t`; a significand that rounding carried out to 2^53 is halved
(R214). -/
def packDouble (negative : Bool) (sg : Int) (t : Int) : Word :=
  if |sg| = 2 ^ 53 then binary64Word negative (t + 1 + 1075) 0
  else binary64Word negative (t + 1075) (|sg| - 2 ^ 52)

/-- TODBL: zero gives +0.0; any other value is rounded to binary64 by the command's rounding mode (R214, D19). -/
def todblResult (f : Fields) (A : Word) : Result :=
  if sint64 A = 0 then .ok (0, 0)
  else
    match significand (sint64 A) f.scale (binaryExponent (sint64 A) f.scale - 52) (generalPolicy f).rm with
    | .error e => .error e
    | .ok sg => .ok (packDouble (decide (sint64 A < 0)) sg (binaryExponent (sint64 A) f.scale - 52), 0)

/-- FROMLONG (R210). -/
def execFromlong (f : Fields) (s : State) : Outcome := .next (complete (fromlongResult f s.ins.cmdA) s)

/-- FROMUNSC (R211). -/
def execFromunsc (f : Fields) (s : State) : Outcome := .next (complete (fromunscResult f s.ins.cmdA s.ins.cmdB) s)

/-- FROMDBL (R212). -/
def execFromdbl (f : Fields) (s : State) : Outcome := .next (complete (fromdblResult f s.ins.cmdA) s)

/-- TOLONG (R213). -/
def execTolong (f : Fields) (s : State) : Outcome := .next (complete (tolongResult f s.ins.cmdA) s)

/-- TODBL (R214). -/
def execTodbl (f : Fields) (s : State) : Outcome := .next (complete (todblResult f s.ins.cmdA) s)

end Sys2Proof.Machine
end

