-- ==== Sys2Proof/Machine/Integral.lean ====
section
/-! DEFINITION. Integral division and remainder (spec/47_integral_division.md R200 to R202). The integral quotient is truncated
toward zero and the remainder has the sign of the dividend (D16, N14). -/

namespace Sys2Proof.Machine

/-- The integral quotient of `a` and `b` as a value at the scale, range-checked (R200). -/
def integralQuotient (f : Fields) (a b : Int) : Except Err Int :=
  fit (multiplyByScaleFactor f.scale (tdiv a b)) (generalPolicy f).om

/-- DIVI: the zero test first, then the integral quotient (R200). -/
def diviResult (f : Fields) (A B : Word) : Result :=
  if sint64 B = 0 then .error .divByZero else respondWith (integralQuotient f (sint64 A) (sint64 B))

/-- REM: the zero test first, then `a - tdiv(a, b) * b` (R201). -/
def remResult (A B : Word) : Result :=
  if sint64 B = 0 then .error .divByZero else respond1 (sint64 A - tdiv (sint64 A) (sint64 B) * sint64 B)

/-- DIVREM: R0 the integral quotient, R1 the remainder; an overflow returns neither (R202). -/
def divremResult (f : Fields) (A B : Word) : Result :=
  if sint64 B = 0 then .error .divByZero
  else
    match integralQuotient f (sint64 A) (sint64 B) with
    | .error e => .error e
    | .ok q => respond2 q (sint64 A - tdiv (sint64 A) (sint64 B) * sint64 B)

/-- DIVI (R200). -/
def execDivi (f : Fields) (s : State) : Outcome := .next (complete (diviResult f s.ins.cmdA s.ins.cmdB) s)

/-- REM (R201): ignores its policy and its scale. -/
def execRem (_f : Fields) (s : State) : Outcome := .next (complete (remResult s.ins.cmdA s.ins.cmdB) s)

/-- DIVREM (R202). -/
def execDivrem (f : Fields) (s : State) : Outcome := .next (complete (divremResult f s.ins.cmdA s.ins.cmdB) s)

end Sys2Proof.Machine
end

