-- ==== Sys2Proof/Machine/ShiftRound.lean ====
section
/-! DEFINITION. Shifts and rounding to a precision (spec/45_shift_round.md R180 to R182). Distances and precisions are whole
signed 64-bit integers (D14, D15). The powers the rules name can have 2^63 digits, so each is taken at a bounded exponent from
which on the answer no longer changes; Laws/ShiftRound.lean proves each bounded form equal to the rule's own (log entry 11). -/

namespace Sys2Proof.Machine

/-- `Fit(a * 2^n, chk)` for a distance `n ≥ 0` (R180); from 64 on the product is out of range unless `a` is 0, and its low 64
bits are 0, so 64 stands for every greater distance. -/
def shiftUp (a : Int) (n : Nat) (p : EffectivePolicy) : Except Err Int := fit (a * pow2 (min n 64)) p.om

/-- `Fit(RoundDiv(a, 2^n, rm), chk)` for a distance `n ≥ 0` (R181); from 65 on the quotient is 0 and the class ZERO or
LT_HALF, so 65 stands for every greater distance. -/
def shiftDown (a : Int) (n : Nat) (p : EffectivePolicy) : Except Err Int := roundFit a (pow2 (min n 65)) p.rm p.om

/-- SHL: up by `n`, or down by `-n` (R180). -/
def shlResult (f : Fields) (A B : Word) : Result :=
  respondWith
    (if 0 ≤ sint64 B then shiftUp (sint64 A) (sint64 B).toNat (shiftPolicy f)
     else shiftDown (sint64 A) (-sint64 B).toNat (shiftPolicy f))

/-- SHR: down by `n`, or up by `-n` (R181). -/
def shrResult (f : Fields) (A B : Word) : Result :=
  respondWith
    (if 0 ≤ sint64 B then shiftDown (sint64 A) (sint64 B).toNat (shiftPolicy f)
     else shiftUp (sint64 A) (-sint64 B).toNat (shiftPolicy f))

/-- `a` rounded to a multiple of 10^k, then range-checked (R182). -/
def roundToMultiple (a : Int) (k : Nat) (p : EffectivePolicy) : Except Err Int :=
  match roundDiv a (pow10 k) p.rm with
  | .error e => .error e
  | .ok v => fit (v * pow10 k) p.om

/-- ROUND: unchanged when the precision is at least the scale, else rounded to a multiple of 10^(s - p) (R182). From 64 on a
nonzero multiple is out of range and its low 64 bits are 0, so 64 stands for every greater exponent. -/
def roundResult (f : Fields) (A B : Word) : Result :=
  if (f.scale : Int) ≤ sint64 B then respond1 (sint64 A)
  else respondWith (roundToMultiple (sint64 A) (min ((f.scale : Int) - sint64 B).toNat 64) (generalPolicy f))

/-- SHL (R180). -/
def execShl (f : Fields) (s : State) : Outcome := .next (complete (shlResult f s.ins.cmdA s.ins.cmdB) s)

/-- SHR (R181). -/
def execShr (f : Fields) (s : State) : Outcome := .next (complete (shrResult f s.ins.cmdA s.ins.cmdB) s)

/-- ROUND (R182). -/
def execRound (f : Fields) (s : State) : Outcome := .next (complete (roundResult f s.ins.cmdA s.ins.cmdB) s)

end Sys2Proof.Machine
end

