-- ==== Sys2Proof/Machine/Dispatch.lean ====
section
/-! DEFINITION. What each instruction does, one arm per row of spec/opcode_table.json (spec/30_encoding.md R78). -/

namespace Sys2Proof.Machine

def exec (i : Instr) (s : State) : Host.Outcome State Fault Refusal :=
  match i with
  | .add f => Sys2Proof.Machine.execAdd f s
  | .sub f => Sys2Proof.Machine.execSub f s
  | .mul f => Sys2Proof.Machine.execMul f s
  | .mull f => Sys2Proof.Machine.execMull f s
  | .div f => Sys2Proof.Machine.execDiv f s
  | .divl f => Sys2Proof.Machine.execDivl f s
  | .sqr f => Sys2Proof.Machine.execSqr f s
  | .sqrt f => Sys2Proof.Machine.execSqrt f s
  | .pow f => Sys2Proof.Machine.execPow f s
  | .shl f => Sys2Proof.Machine.execShl f s
  | .shr f => Sys2Proof.Machine.execShr f s
  | .round f => Sys2Proof.Machine.execRound f s
  | .avg f => Sys2Proof.Machine.execAvg f s
  | .inv f => Sys2Proof.Machine.execInv f s
  | .cmp f => Sys2Proof.Machine.execCmp f s
  | .sgn f => Sys2Proof.Machine.execSgn f s
  | .divi f => Sys2Proof.Machine.execDivi f s
  | .rem f => Sys2Proof.Machine.execRem f s
  | .divrem f => Sys2Proof.Machine.execDivrem f s
  | .fromlong f => Sys2Proof.Machine.execFromlong f s
  | .fromunsc f => Sys2Proof.Machine.execFromunsc f s
  | .fromdbl f => Sys2Proof.Machine.execFromdbl f s
  | .tolong f => Sys2Proof.Machine.execTolong f s
  | .todbl f => Sys2Proof.Machine.execTodbl f s

end Sys2Proof.Machine
end

