-- ==== Sys2Proof/Machine/Step.lean ====
section
/-! DEFINITION. One step of the machine: one rising edge of `clk` (spec/70_reset_and_hazards.md R270 to R276). -/

namespace Sys2Proof.Machine

/-- One rising edge of `clk`. With `rst` = 1 everything in flight is discarded (R270). Otherwise a command that is accepted
(R273) is decoded and run, a command word that fails a decode check completes with that check's error (R80), and the
edge is finished: a response may be taken, the outputs move on. With no command accepted only the latter happens. Nothing finer than an edge
is modelled (DESIGN CHOICE, log entry 12). -/
def step (s : State) : Host.Outcome State Fault Refusal :=
  if s.ins.rst then .next (resetEdge s)
  else if accepts s then
    match decode s.ins.cmdWord with
    | .error e => .next (finishEdge s (raiseError e.err s))
    | .ok i =>
      match exec i s with
      | .next t => .next (finishEdge s t)
      | .fault r => .fault r
      | .refused r => .refused r
  else .next (finishEdge s s)

/-- `s` with an instruction of `nbits` bits, numbered as spec/opcode_table.json numbers them, standing on the command port so
that the next edge accepts and runs it: the DAU fetches nothing (R60), a command is presented to it (R273). The operand words on
the ports and all else stay as they are (DESIGN CHOICE, log entry 13). -/
def State.withFetchWord (s : State) (nbits w : Nat) : State :=
  { s with
    ins := { s.ins with rst := false, cmdValid := true, cmdWord := BitVec.ofNat 32 (w % 2 ^ nbits) }
    cmdReady := true }

end Sys2Proof.Machine
end

