-- ==== Sys2Proof/Machine/Text.lean ====
section
/-! DEFINITION. The host-side decimal text format (spec/49_text_format.md R230 to R232): two functions of the host, no operations
of the DAU and no part of `step` (R6(e), D29; log entry 20). Text is a list of characters. -/

namespace Sys2Proof.Machine

/-- The digit character of a number below 10. -/
def digitChar (d : Nat) : Char := Char.ofNat (48 + d)

/-- The number a digit character stands for. -/
def digitValue (c : Char) : Nat := c.toNat - 48

/-- `digit ::= "0".."9"` (R231). -/
def isDecimalDigit (c : Char) : Bool := 48 ≤ c.toNat && c.toNat ≤ 57

/-- The last `k` decimal digits of `n`, with leading zeros (R230). -/
def fixedDigits : (k : Nat) → (n : Nat) → List Char
  | 0, _ => []
  | k + 1, n => fixedDigits k (n / 10) ++ [digitChar (n % 10)]

/-- How many decimal digits `n` has, at least 1, counted up to `fuel`. -/
def digitCount : (fuel : Nat) → (n : Nat) → Nat
  | 0, _ => 1
  | fuel + 1, n => if n < 10 then 1 else digitCount fuel (n / 10) + 1

/-- The decimal digits of `n` with no leading zeros, `0` for 0 (R230); an unscaled value has at most 19 digits. -/
def plainDigits (n : Nat) : List Char := fixedDigits (digitCount 20 n) n

/-- RENDER(a, s) (R230). -/
def render (a : Int) (s : Nat) : List Char :=
  (if a < 0 then ['-'] else []) ++ plainDigits (a.natAbs / 10 ^ s) ++
    (if 1 ≤ s then '.' :: fixedDigits s (a.natAbs % 10 ^ s) else [])

/-- What PARSE reads from an accepted string (R232): the sign, the integer of all its digits, and how many follow the point. -/
structure DecimalText where
  negative : Bool
  digits   : Nat
  fraction : Nat
  deriving DecidableEq, Repr

/-- The integer a list of digits forms. -/
def digitsValue (ds : List Char) : Nat := ds.foldl (fun n c => 10 * n + digitValue c) 0

/-- The digits before the point, and what follows them, with the sign already read (R231). -/
def scanUnsigned (negative : Bool) (t : List Char) : Option DecimalText :=
  match t.takeWhile isDecimalDigit, t.dropWhile isDecimalDigit with
  | [], _ => none
  | ds, [] => some { negative := negative, digits := digitsValue ds, fraction := 0 }
  | ds, c :: fs =>
    if c = '.' ∧ fs.all isDecimalDigit then
      some { negative := negative, digits := digitsValue (ds ++ fs), fraction := fs.length }
    else none

/-- The grammar `[sign] digit+ [ "." digit* ]` (R231). -/
def scanDecimal : List Char → Option DecimalText
  | '+' :: t => scanUnsigned false t
  | '-' :: t => scanUnsigned true t
  | t => scanUnsigned false t

/-- The signed integer of the digits. -/
def DecimalText.signed (d : DecimalText) : Int := if d.negative then -(d.digits : Int) else d.digits

/-- PARSE(text, s, rm, chk) (R231, R232): a string outside the grammar is INVALID_OPERAND. -/
def parse (t : List Char) (s : Nat) (rm : RoundingMode) (om : OverflowMode) : Except Err Int :=
  match scanDecimal t with
  | none => .error .invalidOperand
  | some d =>
    if d.fraction ≤ s then fit (d.signed * pow10 (s - d.fraction)) om
    else roundFit d.signed (pow10 (d.fraction - s)) rm om

end Sys2Proof.Machine
end

