-- ==== Sys2Proof/Machine/Assembler.lean ====
section
/-! DEFINITION. The assembler text of commands and responses, and the two pseudo-instructions (spec/30_encoding.md R82, R83): a
way to write commands down, no part of `step` (DESIGN CHOICE in what R82 leaves open, log entry 15). Text is a list of characters. -/

namespace Sys2Proof.Machine

/-- The mnemonics of R78. -/
def mnemonics : List (List Char × (Fields → Instr)) :=
  [ (['A', 'D', 'D'], .add), (['S', 'U', 'B'], .sub), (['M', 'U', 'L'], .mul), (['M', 'U', 'L', 'L'], .mull),
    (['D', 'I', 'V'], .div), (['D', 'I', 'V', 'L'], .divl), (['S', 'Q', 'R'], .sqr), (['S', 'Q', 'R', 'T'], .sqrt),
    (['P', 'O', 'W'], .pow), (['S', 'H', 'L'], .shl), (['S', 'H', 'R'], .shr), (['R', 'O', 'U', 'N', 'D'], .round),
    (['A', 'V', 'G'], .avg), (['I', 'N', 'V'], .inv), (['C', 'M', 'P'], .cmp), (['S', 'G', 'N'], .sgn),
    (['D', 'I', 'V', 'I'], .divi), (['R', 'E', 'M'], .rem), (['D', 'I', 'V', 'R', 'E', 'M'], .divrem),
    (['F', 'R', 'O', 'M', 'L', 'O', 'N', 'G'], .fromlong), (['F', 'R', 'O', 'M', 'U', 'N', 'S', 'C'], .fromunsc),
    (['F', 'R', 'O', 'M', 'D', 'B', 'L'], .fromdbl), (['T', 'O', 'L', 'O', 'N', 'G'], .tolong),
    (['T', 'O', 'D', 'B', 'L'], .todbl) ]

/-- The rounding mode names of R82. -/
def roundingNames : List (List Char × RoundingMode) :=
  [ (['U', 'P'], .up), (['D', 'O', 'W', 'N'], .down), (['C', 'E', 'I', 'L', 'I', 'N', 'G'], .ceiling),
    (['F', 'L', 'O', 'O', 'R'], .floor), (['H', 'A', 'L', 'F', '_', 'U', 'P'], .halfUp),
    (['H', 'A', 'L', 'F', '_', 'D', 'O', 'W', 'N'], .halfDown), (['H', 'A', 'L', 'F', '_', 'E', 'V', 'E', 'N'], .halfEven),
    (['H', 'A', 'L', 'F', '_', 'C', 'E', 'I', 'L', 'I', 'N', 'G'], .halfCeiling),
    (['H', 'A', 'L', 'F', '_', 'F', 'L', 'O', 'O', 'R'], .halfFloor),
    (['U', 'N', 'N', 'E', 'C', 'E', 'S', 'S', 'A', 'R', 'Y'], .unnecessary) ]

/-- The status names of R241. -/
def statusName : Status → List Char
  | .ok => ['O', 'K']
  | .error .overflow => ['O', 'V', 'E', 'R', 'F', 'L', 'O', 'W']
  | .error .divByZero => ['D', 'I', 'V', '_', 'B', 'Y', '_', 'Z', 'E', 'R', 'O']
  | .error .inexact => ['I', 'N', 'E', 'X', 'A', 'C', 'T']
  | .error .incompatibleScale =>
    ['I', 'N', 'C', 'O', 'M', 'P', 'A', 'T', 'I', 'B', 'L', 'E', '_', 'S', 'C', 'A', 'L', 'E']
  | .error .invalidScale => ['I', 'N', 'V', 'A', 'L', 'I', 'D', '_', 'S', 'C', 'A', 'L', 'E']
  | .error .invalidOperand => ['I', 'N', 'V', 'A', 'L', 'I', 'D', '_', 'O', 'P', 'E', 'R', 'A', 'N', 'D']
  | .error .illegalCommand => ['I', 'L', 'L', 'E', 'G', 'A', 'L', '_', 'C', 'O', 'M', 'M', 'A', 'N', 'D']

/-- The value of a name in a table of names. -/
def lookupName {α : Type} (name : List Char) : List (List Char × α) → Option α
  | [] => none
  | (n, v) :: rest => if n = name then some v else lookupName name rest

/-- The text before the first character `c`, and the text after it where `c` occurs. -/
def splitAtFirst (c : Char) : List Char → List Char × Option (List Char)
  | [] => ([], none)
  | x :: xs => if x = c then ([], some xs) else (x :: (splitAtFirst c xs).1, (splitAtFirst c xs).2)

/-- `<policy> ::= DEF | <RMNAME>.C | <RMNAME>.U` (R82). -/
def assemblePolicy (t : List Char) : Option Policy :=
  match splitAtFirst '.' t with
  | (['D', 'E', 'F'], none) => some .noPolicy
  | (name, some ['C']) => (lookupName name roundingNames).map (Policy.given · .checked)
  | (name, some ['U']) => (lookupName name roundingNames).map (Policy.given · .unchecked)
  | _ => none

/-- `s<scale>` with a scale of 0 to 18 (R82, R72). -/
def assembleScale : List Char → Option Nat
  | 's' :: ds =>
    if ds ≠ [] ∧ ds.all isDecimalDigit ∧ digitsValue ds ≤ 18 then some (digitsValue ds) else none
  | _ => none

/-- The value of a hexadecimal digit. -/
def hexValue (c : Char) : Option Nat :=
  if isDecimalDigit c then some (digitValue c)
  else if 65 ≤ c.toNat && c.toNat ≤ 70 then some (c.toNat - 55)
  else if 97 ≤ c.toNat && c.toNat ≤ 102 then some (c.toNat - 87)
  else none

/-- The number a list of hexadecimal digits forms, after the part `n` already read. -/
def hexDigits : (n : Nat) → List Char → Option Nat
  | n, [] => some n
  | n, c :: cs =>
    match hexValue c with
    | some d => hexDigits (16 * n + d) cs
    | none => none

/-- A signed decimal literal in [-2^63, 2^63-1]. -/
def decimalOperand (negative : Bool) (ds : List Char) : Option Word :=
  let v : Int := if negative then -(digitsValue ds : Int) else digitsValue ds
  if ds ≠ [] ∧ ds.all isDecimalDigit ∧ fits64 v then some (bits64 v) else none

/-- An operand: a signed decimal integer literal, or a `0x` hexadecimal 64-bit pattern (R82). -/
def assembleOperand : List Char → Option Word
  | '0' :: 'x' :: hs =>
    match hexDigits 0 hs with
    | some n => if hs ≠ [] ∧ n < 2 ^ 64 then some (BitVec.ofNat 64 n) else none
    | none => none
  | '-' :: ds => decimalOperand true ds
  | ds => decimalOperand false ds

/-- `<A>[, <B>]`; an omitted B is 0 (R82). -/
def assembleOperands (t : List Char) : Option (Word × Word) :=
  match splitAtFirst ',' t with
  | (a, none) => (assembleOperand a).map (·, 0)
  | (a, some (' ' :: b)) =>
    match assembleOperand a, assembleOperand b with
    | some x, some y => some (x, y)
    | _, _ => none
  | _ => none

/-- The command of an instruction and its operand words. -/
def commandOf (i : Instr) (A B : Word) : Command := { word := encode i, a := A, b := B }

/-- The pseudo-instruction `ONE s<k>`: `FROMLONG.DEF s<k> 1` (R83). -/
def pseudoOne (k : Nat) : Command := commandOf (.fromlong { scale := k, policy := .noPolicy }) 1 0

/-- The pseudo-instruction `NEG.<policy> s<k> <A>`: `SUB.<policy> s<k> 0, <A>` (R83). -/
def pseudoNeg (f : Fields) (A : Word) : Command := commandOf (.sub f) 0 A

/-- `<MNEMONIC>.<policy> s<scale> <A>[, <B>]` with its parts split (R82), NEG among the mnemonics (R83). -/
def assembleLine (name policy scale operands : List Char) : Option Command :=
  match assemblePolicy policy, assembleScale scale, assembleOperands operands with
  | some p, some s, some (A, B) =>
    if name = ['N', 'E', 'G'] then
      if ',' ∈ operands then none else some (pseudoNeg { scale := s, policy := p } A)
    else (lookupName name mnemonics).map fun op => commandOf (op { scale := s, policy := p }) A B
  | _, _, _ => none

/-- The command a line of assembler text spells, or none (R82, R83). -/
def assemble (line : List Char) : Option Command :=
  match splitAtFirst ' ' line with
  | (['O', 'N', 'E'], some scale) => (assembleScale scale).map pseudoOne
  | (head, some rest) =>
    match splitAtFirst '.' head, splitAtFirst ' ' rest with
    | (name, some policy), (scale, some operands) => assembleLine name policy scale operands
    | _, _ => none
  | _ => none

/-- The text of a result word, as a signed decimal integer. -/
def wordText (v : Word) : List Char := render (sint64 v) 0

/-- The text of a response: `-> OK <R0>`, with `, <R1>` for an operation of two results, or `-> <STATUS>` (R82). -/
def responseText (twoResults : Bool) (r : Response) : List Char :=
  ['-', '>', ' '] ++ statusName r.status ++
    match r.status with
    | .ok => [' '] ++ wordText r.r0 ++ (if twoResults then [',', ' '] ++ wordText r.r1 else [])
    | .error _ => []

end Sys2Proof.Machine
end

