-- ==== Sys2Proof/Machine/Respond.lean ====
section
/-! DEFINITION. The DAU at the transaction level (spec/10_state.md R31, R32, R44): the response of a command, as a function of
the command alone (spec/20_memory.md R56). `exec` completes a command with the same results (Laws/Ops.lean `exec_eq`). -/

namespace Sys2Proof.Machine

/-- What an operation answers for two operand words: the rule of each row (R78). -/
def resultOf (i : Instr) (A B : Word) : Result :=
  match i with
  | .add f => addResult f A B
  | .sub f => subResult f A B
  | .mul f => mulResult f A B
  | .mull f => mullResult f A B
  | .div f => divResult f A B
  | .divl f => divlResult f A B
  | .sqr f => sqrResult f A
  | .sqrt f => sqrtResult f A
  | .pow f => powResult f A B
  | .shl f => shlResult f A B
  | .shr f => shrResult f A B
  | .round f => roundResult f A B
  | .avg f => avgResult f A B
  | .inv f => invResult f A
  | .cmp _ => cmpResult A B
  | .sgn _ => sgnResult A
  | .divi f => diviResult f A B
  | .rem _ => remResult A B
  | .divrem f => divremResult f A B
  | .fromlong f => fromlongResult f A
  | .fromunsc f => fromunscResult f A B
  | .fromdbl f => fromdblResult f A
  | .tolong f => tolongResult f A
  | .todbl f => todblResult f A

/-- The response of a command (R31, R32): the error of the decode check it fails, or its operation's result (R80). -/
def answer (c : Command) : Response :=
  match decode c.word with
  | .error e => errorResponse e.err
  | .ok i => responseOf (resultOf i c.a c.b)

end Sys2Proof.Machine
end

