-- ==== Sys2Proof/Safety.lean ====
section
/-! DEFINITION. What the statements speak of beyond one step: the state after some steps, the commands accepted and the responses
taken on the way (spec/70_reset_and_hazards.md R274, R280), the host's duties (R273, R279), and the invariant of the machine. -/

namespace Sys2Proof.Safety

open Sys2Proof.Machine

/-- The state after `k` steps; a step that stops leaves the state as it is (no step of this machine stops). -/
def stateAfter : Nat → State → State
  | 0, s => s
  | k + 1, s =>
    match step s with
    | .next t => stateAfter k t
    | .fault _ => s
    | .refused _ => s

/-- The command accepted at the coming edge, if any (R273). -/
def acceptedNow (s : State) : List Command := if accepts s then [presented s] else []

/-- The response the host takes at the coming edge, if any, as it stands on the ports (R273). -/
def takenNow (s : State) : List (BitVec 3 × Word × Word) := if takes s then [(s.rspStatus, s.rspR0, s.rspR1)] else []

/-- The commands accepted in the coming `k` edges, in order. -/
def acceptedIn : Nat → State → List Command
  | 0, _ => []
  | k + 1, s => acceptedNow s ++ acceptedIn k (stateAfter 1 s)

/-- The responses the host takes in the coming `k` edges, in order: a host program's end state (R280). -/
def takenIn : Nat → State → List (BitVec 3 × Word × Word)
  | 0, _ => []
  | k + 1, s => takenNow s ++ takenIn k (stateAfter 1 s)

/-- No edge of the coming `k` edges is a reset edge. -/
def noResetIn : Nat → State → Bool
  | 0, _ => true
  | k + 1, s => !s.ins.rst && noResetIn k (stateAfter 1 s)

/-- A response as the ports carry it (R44, R241). -/
def onPorts (r : Response) : BitVec 3 × Word × Word := (statusCode r.status, r.r0, r.r1)

/-- The host's duty (R273, R279): a command that is presented and not accepted because `cmd_ready` = 0 is presented again,
unchanged. That a cycle with `rst` = 1 is excepted is the model's reading; the rules do not say (DESIGN CHOICE, log entry 22). -/
def hostHolds (s t : State) : Bool :=
  if s.ins.cmdValid && !s.cmdReady && !s.ins.rst then t.ins.cmdValid && presented t == presented s else true

/-- The host may read R0 and R1 of a response (R33, R279): its status is OK. -/
def mayRead (r : Response) : Bool := r.status == .ok

/-- Every command in flight carries the response of that command and of nothing else (R56, R274). -/
abbrev AnswersOwn (s : State) : Prop := ∀ e ∈ s.inFlight, e.response = answer e.command

/-- At most DEPTH commands are in flight, and outside reset `cmd_ready` is offered only where one more has room (R275). -/
abbrev DepthKept (s : State) : Prop :=
  s.inFlight.length ≤ Config.depth ∧
    (s.ins.rst = false → s.cmdReady = true → s.inFlight.length < Config.depth)

/-- A response is presented exactly when something is in flight and the oldest command's wait is over; what stands on the
response ports is then the oldest command's response (R273, R274); the wait is below LATENCY_MAX (R276). -/
abbrev PortsAgree (s : State) : Prop :=
  (s.rspValid = true ↔ s.inFlight ≠ [] ∧ s.headWait = 0) ∧
    (s.rspValid = true →
      s.inFlight.head?.map (fun e => onPorts e.response) = some (s.rspStatus, s.rspR0, s.rspR1)) ∧
    s.headWait < Config.latencyMax

/-- The invariant of the machine. -/
structure Inv (s : State) : Prop where
  answersOwn : AnswersOwn s
  depthKept  : DepthKept s
  portsAgree : PortsAgree s

end Sys2Proof.Safety
end

