-- ==== Sys2Proof/Safety/Claims.lean ====
section
/-! DEFINITION. The words the statements about single operations are written in. They say what a rounded quotient, a rounded
square root, a truncated division and a rounded binary64 value ARE, by order and multiplication alone, without the divider, the
rounding selector or any other component of Machine/Datapath.lean. -/

namespace Sys2Proof.Safety

open Sys2Proof.Machine

/-! ## Completing a command -/

/-- `exec` answers the next state in which the command on the port is in flight, behind all earlier ones, with the response `r`,
and nothing else has changed. -/
def Completes (i : Instr) (s : State) (r : Response) : Prop :=
  exec i s = .next { s with inFlight := s.inFlight ++ [{ command := presented s, response := r }] }

/-- The response of an error: no result (R33, R251). -/
def failed (e : Err) : Response := { status := .error e, r0 := 0, r1 := 0 }

/-- The response of a single integer result: its low 64 bits, R1 = 0 (R33). -/
def single (v : Int) : Response := { status := .ok, r0 := BitVec.ofInt 64 v, r1 := 0 }

/-- The value lies in the signed 64-bit range (R7). -/
abbrev InRange (v : Int) : Prop := -(2 ^ 63) ≤ v ∧ v < 2 ^ 63

/-- The response of an exact integer result under an overflow mode (R39, R117). -/
def fitted (om : OverflowMode) (v : Int) : Response :=
  if InRange v ∨ om = .unchecked then single v else failed .overflow

/-- The response of a value or an error that a computation on integers ends with. -/
def outcomeOf : Except Err Int → Response
  | .ok v => single v
  | .error e => failed e

/-- The OPC field of an instruction's command word, `word mod 64` (R71). -/
def opcodeOf (i : Instr) : Nat := (encode i).toNat % 64

/-! ## Rounded quotients (R113) -/

/-- `v` is the greatest integer at most `n / d`, for a positive `d`. -/
abbrev IsFloorOf (n d v : Int) : Prop := v * d ≤ n ∧ n < (v + 1) * d

/-- `v` is the least integer at least `n / d`, for a positive `d`. -/
abbrev IsCeilingOf (n d v : Int) : Prop := (v - 1) * d < n ∧ n ≤ v * d

/-- `v` is an integer at distance at most one half from `n / d`, for a positive `d`. -/
abbrev IsNearestTo (n d v : Int) : Prop := 2 * |n - v * d| ≤ d

/-- `n / d` lies halfway between `v` and a neighbour of `v`, for a positive `d`. -/
abbrev IsHalfFrom (n d v : Int) : Prop := 2 * |n - v * d| = d

/-- `v` is `n / d` rounded to an integer by the mode, for a positive `d`: the meaning of each row of R113. -/
def IsRoundedQuotient (rm : RoundingMode) (n d v : Int) : Prop :=
  match rm with
  | .up => if 0 ≤ n then IsCeilingOf n d v else IsFloorOf n d v
  | .down => if 0 ≤ n then IsFloorOf n d v else IsCeilingOf n d v
  | .ceiling => IsCeilingOf n d v
  | .floor => IsFloorOf n d v
  | .halfUp => IsNearestTo n d v ∧ (IsHalfFrom n d v → |n| < |v * d|)
  | .halfDown => IsNearestTo n d v ∧ (IsHalfFrom n d v → |v * d| < |n|)
  | .halfEven => IsNearestTo n d v ∧ (IsHalfFrom n d v → v % 2 = 0)
  | .halfCeiling => IsNearestTo n d v ∧ (IsHalfFrom n d v → n < v * d)
  | .halfFloor => IsNearestTo n d v ∧ (IsHalfFrom n d v → v * d < n)
  | .unnecessary => n = v * d

/-- `v` is `n / d` rounded to an integer by the mode, for a nonzero `d` of either sign. -/
def IsRounding (rm : RoundingMode) (n d v : Int) : Prop := IsRoundedQuotient rm (n * d.sign) |d| v

/-- An operation answers `n / d` rounded by the policy's mode and then range-checked; INEXACT when the mode is UNNECESSARY and
the division is not exact, under either overflow mode (R116 to R118, R40). -/
def AnswersRounded (i : Instr) (s : State) (p : EffectivePolicy) (n d : Int) : Prop :=
  (∀ v, IsRounding p.rm n d v → Completes i s (fitted p.om v)) ∧
    (p.rm = .unnecessary → ¬ d ∣ n → Completes i s (failed .inexact))

/-- An operation answers `n / d` rounded by the mode, which always fits; INEXACT as above. -/
def AnswersInRange (i : Instr) (s : State) (rm : RoundingMode) (n d : Int) : Prop :=
  (∀ v, IsRounding rm n d v → InRange v ∧ Completes i s (single v)) ∧
    (rm = .unnecessary → ¬ d ∣ n → Completes i s (failed .inexact))

/-- The mirrored mode of R120. -/
def mirror : RoundingMode → RoundingMode
  | .ceiling => .floor
  | .floor => .ceiling
  | .halfCeiling => .halfFloor
  | .halfFloor => .halfCeiling
  | rm => rm

/-! ## Rounded square roots (R171) -/

/-- `v` is the square root of `n` rounded to an integer by the mode. A square root is never halfway between two integers, so the
five HALF modes agree. -/
def IsRoundedRoot (rm : RoundingMode) (n v : Int) : Prop :=
  0 ≤ v ∧
    match rm with
    | .down | .floor => v * v ≤ n ∧ n < (v + 1) * (v + 1)
    | .up | .ceiling => n ≤ v * v ∧ (v = 0 ∨ (v - 1) * (v - 1) < n)
    | .halfUp | .halfDown | .halfEven | .halfCeiling | .halfFloor =>
      4 * n < (2 * v + 1) * (2 * v + 1) ∧ (v = 0 ∨ (2 * v - 1) * (2 * v - 1) < 4 * n)
    | .unnecessary => v * v = n

/-! ## Truncated division (R200 to R202) -/

/-- `q` and `r` are the quotient truncated toward zero and its remainder: the remainder is smaller than the divisor and has the
dividend's sign (R11, R201). -/
abbrev IsTruncatedDivision (a b q r : Int) : Prop :=
  a = q * b + r ∧ |r| < |b| ∧ (0 ≤ a → 0 ≤ r) ∧ (a ≤ 0 → r ≤ 0)

/-! ## The loop of POW (R172) -/

/-- MULSTEP (R172): what a MUL with the fields `f` answers for the words of `x` and `y`, read as an integer. -/
def mulOfCommand (f : Fields) (x y : Int) : Except Err Int :=
  match resultOf (.mul f) (BitVec.ofInt 64 x) (BitVec.ofInt 64 y) with
  | .ok (r, _) => .ok r.toInt
  | .error e => .error e

/-- POW's loop, from what is left of the exponent, the base and the accumulator to the value or error it ends with, with no
bound on its rounds: one constructor for each way a round can go. `mul` is MULSTEP. -/
inductive PowLoopEnds (mul : Int → Int → Except Err Int) : Nat → Int → Int → Except Err Int → Prop where
  /-- The multiplication of an odd round raises an error. -/
  | multiplyFails (m : Nat) (base acc : Int) (e : Err) :
      m % 2 = 1 → mul acc base = .error e → PowLoopEnds mul m base acc (.error e)
  /-- The last round, and it multiplies. -/
  | lastOdd (m : Nat) (base acc acc' : Int) :
      m % 2 = 1 → mul acc base = .ok acc' → m / 2 = 0 → PowLoopEnds mul m base acc (.ok acc')
  /-- The last round, and it does not multiply. -/
  | lastEven (m : Nat) (base acc : Int) :
      m % 2 = 0 → m / 2 = 0 → PowLoopEnds mul m base acc (.ok acc)
  /-- The squaring after an odd round raises an error. -/
  | squareFailsOdd (m : Nat) (base acc acc' : Int) (e : Err) :
      m % 2 = 1 → mul acc base = .ok acc' → m / 2 ≠ 0 → mul base base = .error e →
      PowLoopEnds mul m base acc (.error e)
  /-- The squaring after an even round raises an error. -/
  | squareFailsEven (m : Nat) (base acc : Int) (e : Err) :
      m % 2 = 0 → m / 2 ≠ 0 → mul base base = .error e → PowLoopEnds mul m base acc (.error e)
  /-- An odd round that is not the last. -/
  | odd (m : Nat) (base acc acc' base' : Int) (r : Except Err Int) :
      m % 2 = 1 → mul acc base = .ok acc' → m / 2 ≠ 0 → mul base base = .ok base' →
      PowLoopEnds mul (m / 2) base' acc' r → PowLoopEnds mul m base acc r
  /-- An even round that is not the last. -/
  | even (m : Nat) (base acc base' : Int) (r : Except Err Int) :
      m % 2 = 0 → m / 2 ≠ 0 → mul base base = .ok base' →
      PowLoopEnds mul (m / 2) base' acc r → PowLoopEnds mul m base acc r

/-! ## binary64 (R54) -/

/-- The biased exponent of a binary64 word, its fraction, and whether its sign bit is set, by division (R54). -/
def exponentField (w : Word) : Nat := w.toNat / 2 ^ 52 % 2 ^ 11
def fractionField (w : Word) : Nat := w.toNat % 2 ^ 52
def signField (w : Word) : Bool := decide (2 ^ 63 ≤ w.toNat)

/-- The magnitude of a finite binary64 pattern whose low 63 bits are `m` (R54). -/
def magnitudeOf (m : Nat) : ℚ :=
  if m / 2 ^ 52 = 0 then ((m % 2 ^ 52 : Nat) : ℚ) * (2 : ℚ) ^ (-1074 : ℤ)
  else ((2 ^ 52 + m % 2 ^ 52 : Nat) : ℚ) * (2 : ℚ) ^ (((m / 2 ^ 52 : Nat) : ℤ) - 1075)

/-- The word with the sign and the low 63 bits `m`. -/
def signedPattern (negative : Bool) (m : Nat) : Word := BitVec.ofNat 64 (m + if negative then 2 ^ 63 else 0)

/-- The pattern `m` is at most, and the next one above, the magnitude `x`. -/
def IsPatternBelow (x : ℚ) (m : Nat) : Prop := magnitudeOf m ≤ x ∧ x < magnitudeOf (m + 1)

/-- The pattern `m` is at least, and the next one below, the magnitude `x`. -/
def IsPatternAbove (x : ℚ) (m : Nat) : Prop := 0 < m ∧ magnitudeOf (m - 1) < x ∧ x ≤ magnitudeOf m

/-- The pattern `m` is nearest to the magnitude `x`. Exactly halfway to the next pattern it is chosen only when `keepLow`; exactly
halfway to the previous one only when `takeHigh`. -/
def IsPatternNearest (x : ℚ) (m : Nat) (keepLow takeHigh : Prop) : Prop :=
  0 < m ∧ magnitudeOf (m - 1) + magnitudeOf m ≤ 2 * x ∧ 2 * x ≤ magnitudeOf m + magnitudeOf (m + 1) ∧
    (2 * x = magnitudeOf m + magnitudeOf (m + 1) → keepLow) ∧
    (2 * x = magnitudeOf (m - 1) + magnitudeOf m → takeHigh)

/-- The pattern with the given sign and low bits `m` is the value of that sign and magnitude `x > 0`, rounded to binary64 by the
mode (R113, R214). -/
def IsRoundedPattern (rm : RoundingMode) (negative : Bool) (x : ℚ) (m : Nat) : Prop :=
  match rm with
  | .up => IsPatternAbove x m
  | .down => IsPatternBelow x m
  | .ceiling => if negative then IsPatternBelow x m else IsPatternAbove x m
  | .floor => if negative then IsPatternAbove x m else IsPatternBelow x m
  | .halfUp => IsPatternNearest x m False True
  | .halfDown => IsPatternNearest x m True False
  | .halfEven => IsPatternNearest x m (m % 2 = 0) (m % 2 = 0)
  | .halfCeiling => IsPatternNearest x m (negative = true) (negative = false)
  | .halfFloor => IsPatternNearest x m (negative = false) (negative = true)
  | .unnecessary => magnitudeOf m = x

/-! ## Errors (R250) -/

/-- An instruction with other fields. -/
def withFields (g : Fields) : Instr → Instr
  | .add _ => .add g
  | .sub _ => .sub g
  | .mul _ => .mul g
  | .mull _ => .mull g
  | .div _ => .div g
  | .divl _ => .divl g
  | .sqr _ => .sqr g
  | .sqrt _ => .sqrt g
  | .pow _ => .pow g
  | .shl _ => .shl g
  | .shr _ => .shr g
  | .round _ => .round g
  | .avg _ => .avg g
  | .inv _ => .inv g
  | .cmp _ => .cmp g
  | .sgn _ => .sgn g
  | .divi _ => .divi g
  | .rem _ => .rem g
  | .divrem _ => .divrem g
  | .fromlong _ => .fromlong g
  | .fromunsc _ => .fromunsc g
  | .fromdbl _ => .fromdbl g
  | .tolong _ => .tolong g
  | .todbl _ => .todbl g

/-- The errors each operation can raise, besides the decode errors: the rows of R250. -/
def errorsOf : Instr → List Err
  | .add _ | .sub _ | .mull _ | .fromlong _ => [.overflow]
  | .mul _ | .sqr _ | .round _ => [.overflow, .inexact]
  | .div _ | .divl _ | .inv _ | .pow _ => [.overflow, .divByZero, .inexact]
  | .shl _ | .shr _ => [.overflow, .inexact]
  | .sqrt _ => [.inexact, .invalidOperand]
  | .avg _ | .tolong _ | .todbl _ => [.inexact]
  | .cmp _ | .sgn _ => []
  | .divi _ | .divrem _ => [.overflow, .divByZero]
  | .rem _ => [.divByZero]
  | .fromunsc _ => [.overflow, .inexact, .invalidScale]
  | .fromdbl _ => [.overflow, .inexact, .invalidOperand]

/-- The operations whose response does not depend on the rounding mode: the "no" entries of R81's rm column. -/
def ignoresRounding : Instr → Bool
  | .add _ | .sub _ | .mull _ | .fromlong _ | .divi _ | .divrem _ | .rem _ | .cmp _ | .sgn _ => true
  | .mul _ | .sqr _ | .div _ | .divl _ | .pow _ | .round _ | .inv _ | .fromunsc _ | .fromdbl _ | .shl _ | .shr _
  | .sqrt _ | .avg _ | .tolong _ | .todbl _ => false

/-- The operations whose response does not depend on the overflow mode: the "no" entries of R81's chk column. -/
def ignoresOverflow : Instr → Bool
  | .sqrt _ | .avg _ | .tolong _ | .todbl _ | .rem _ | .cmp _ | .sgn _ => true
  | .add _ | .sub _ | .mull _ | .fromlong _ | .divi _ | .divrem _ | .mul _ | .sqr _ | .div _ | .divl _ | .pow _
  | .round _ | .inv _ | .fromunsc _ | .fromdbl _ | .shl _ | .shr _ => false

/-- The operations whose default policy is (FLOOR, UNCHECKED) (R37). -/
def isShift : Instr → Bool
  | .shl _ | .shr _ => true
  | .add _ | .sub _ | .mul _ | .mull _ | .div _ | .divl _ | .sqr _ | .sqrt _ | .pow _ | .round _ | .avg _ | .inv _
  | .cmp _ | .sgn _ | .divi _ | .rem _ | .divrem _ | .fromlong _ | .fromunsc _ | .fromdbl _ | .tolong _ | .todbl _ => false

end Sys2Proof.Safety
end

