-- ==== Sys2Proof/Certificates/Slice0/Obligations.lean ====
section
/-! DEFINITION. The statements for the provers: the numbered rules of spec/ as claims about the machine, over all states and all
operands. Every one names no program and no single run. -/

open Sys2Proof Sys2Proof.Machine Sys2Proof.Safety

/-! ## Encoding -/

/-- R70 to R78: the encoder's word of a well-formed instruction decodes to that instruction, every field at every value. -/
def Obligations.DecodeOfEncode : Prop :=
  ∀ i : Instr, i.wellFormed = true → decode (encode i) = .ok i

/-- R75 ("so that each command word has one meaning"): a word that decodes is the encoder's word of what it decodes to, and
that is well formed. -/
def Obligations.EncodeOfDecode : Prop :=
  ∀ (w : CmdWord) (i : Instr), decode w = .ok i → i.wellFormed = true ∧ encode i = w

/-- R84: the twelve worked encodings. -/
def Obligations.WorkedEncodings : Prop :=
  decode 0x00010081 = .ok (.add ⟨2, .noPolicy⟩) ∧
  decode 0x0000A085 = .ok (.div ⟨2, .given .halfUp .checked⟩) ∧
  decode 0x0000C885 = .ok (.div ⟨2, .given .unnecessary .checked⟩) ∧
  decode 0x0001008B = .ok (.shr ⟨2, .noPolicy⟩) ∧
  decode 0x00003483 = .ok (.mul ⟨18, .given .halfEven .unchecked⟩) ∧
  decode 0x0000B0D8 = .ok (.todbl ⟨3, .given .halfEven .checked⟩) ∧
  decode 0x00008813 = .ok (.divrem ⟨0, .given .down .checked⟩) ∧
  (∀ a b, answer ⟨0x00000000, a, b⟩ = failed .illegalCommand) ∧
  (∀ a b, answer ⟨0x00020001, a, b⟩ = failed .illegalCommand) ∧
  (∀ a b, answer ⟨0x00010801, a, b⟩ = failed .illegalCommand) ∧
  (∀ a b, answer ⟨0x00005001, a, b⟩ = failed .illegalCommand) ∧
  (∀ a b, answer ⟨0x000004C1, a, b⟩ = failed .invalidScale)

/-- R80, R79, R248: an accepted command with a reserved bit, opcode or rounding value, or with DEF = 1 and a policy, completes
with ILLEGAL_COMMAND; else, with SCALE 19 or more, with INVALID_SCALE; else its operation runs, with the scale and the policy its
fields name (R70 to R75). The fields are read from the word by division. -/
def Obligations.DecodeChecksInOrder : Prop :=
  ∀ (s : State), accepts s = true →
    let w := s.ins.cmdWord.toNat
    let opc := w % 2 ^ 6
    let scale := w / 2 ^ 6 % 2 ^ 5
    let rm := w / 2 ^ 11 % 2 ^ 4
    let chk := w / 2 ^ 15 % 2
    let dflt := w / 2 ^ 16 % 2
    let rsvd := w / 2 ^ 17
    if rsvd ≠ 0 ∨ (opc = 0 ∨ 0x19 ≤ opc) ∨ (dflt = 1 ∧ (rm ≠ 0 ∨ chk ≠ 0)) ∨ (dflt = 0 ∧ 10 ≤ rm) then
      step s = .next (finishEdge s (completeWith (failed .illegalCommand) s))
    else if 19 ≤ scale then
      step s = .next (finishEdge s (completeWith (failed .invalidScale) s))
    else
      ∃ i t, i.opcode = opc ∧ i.fields.scale = scale ∧
        (i.fields.policy = .noPolicy ↔ dflt = 1) ∧
        (∀ m om, i.fields.policy = .given m om → m.code = rm ∧ om.code = chk) ∧
        exec i s = .next t ∧ step s = .next (finishEdge s t)

/-! ## The machine -/

/-- A step at which a command word that decodes to a well-formed instruction is accepted is `exec` of that instruction, and
then the rest of the edge: a response may be taken, the outputs move on (R273). -/
def Obligations.StepRunsDecodedInstruction : Prop :=
  ∀ (s t : State) (i : Instr), accepts s = true → decode s.ins.cmdWord = .ok i → exec i s = .next t →
    step s = .next (finishEdge s t)

/-- R252, R280: no error and no command stops the DAU; every step answers a next state. -/
def Obligations.StepNeverStops : Prop :=
  ∀ s : State, ∃ t, step s = .next t

/-- Every step keeps the invariant: each command in flight carries its own response, at most DEPTH are in flight, and the
response ports show the oldest command's response exactly when its latency is over (R42, R56, R273 to R276). That a response is
held with its command, and the latency as a wait of the oldest command, are the model's choice (log entries 6 and 10). -/
def Obligations.StepKeepsInvariant : Prop :=
  ∀ s t : State, Inv s → step s = .next t → Inv t

/-- The invariant holds after reset. The values reset gives the ports the spec leaves open are the model's choice (log entries 2
and 3); the invariant says nothing of them. -/
def Obligations.ResetMeetsInvariant : Prop := Inv State.reset

/-- R270, R45: at an edge with `rst` = 1 no command is accepted and no response taken, and after it nothing is in flight and
`rsp_valid` is 0, whatever was in flight or presented before. -/
def Obligations.ResetEdgeDiscardsAll : Prop :=
  ∀ s : State, s.ins.rst = true →
    acceptedNow s = [] ∧ takenNow s = [] ∧ ∃ t, step s = .next t ∧ t.inFlight = [] ∧ t.rspValid = false

/-- R273, R55: at an edge with `rst` = 0 the command standing on the ports joins the commands in flight, whole, exactly when
`cmd_valid` and `cmd_ready` are 1, and the oldest leaves them exactly when `rsp_valid` and `rsp_ready` are 1. -/
def Obligations.AcceptanceAndTaking : Prop :=
  ∀ s t : State, Inv s → s.ins.rst = false → step s = .next t →
    t.inFlight.map (·.command) =
      (if s.rspValid ∧ s.ins.rspReady then (s.inFlight.map (·.command)).tail else s.inFlight.map (·.command)) ++
        (if s.ins.cmdValid ∧ s.cmdReady then [⟨s.ins.cmdWord, s.ins.cmdA, s.ins.cmdB⟩] else [])

/-- R274: in any run without reset, the responses taken, followed by those of the commands still in flight, are the responses of
the commands that were in flight at its start, followed by those of the commands accepted in it, in that order and nothing
else. -/
def Obligations.ResponsesInCommandOrder : Prop :=
  ∀ (k : Nat) (s : State), Inv s → noResetIn k s = true →
    takenIn k s ++ (stateAfter k s).inFlight.map (fun e => onPorts e.response) =
      s.inFlight.map (fun e => onPorts e.response) ++ (acceptedIn k s).map (fun c => onPorts (answer c))

/-- R280: when a run without reset begins and ends with nothing in flight, its end state, the list of responses the host has
taken, is one response per command, in order. -/
def Obligations.ProgramEndState : Prop :=
  ∀ (k : Nat) (s : State), Inv s → noResetIn k s = true → s.inFlight = [] → (stateAfter k s).inFlight = [] →
    takenIn k s = (acceptedIn k s).map (fun c => onPorts (answer c))

/-- R273: while `rsp_valid` = 1 and `rsp_ready` = 0 the DAU holds `rsp_valid`, `rsp_status`, `rsp_r0` and `rsp_r1` steady. -/
def Obligations.PresentedResponseHeld : Prop :=
  ∀ s t : State, Inv s → s.ins.rst = false → s.rspValid = true → s.ins.rspReady = false → step s = .next t →
    t.rspValid = true ∧ t.rspStatus = s.rspStatus ∧ t.rspR0 = s.rspR0 ∧ t.rspR1 = s.rspR1

/-- R276: the oldest command's response becomes valid within LATENCY_MAX cycles, whatever the command and whatever the host
does meanwhile, reset apart. That what is left of the latency is counted by `headWait` is the model's choice (log entry 6). -/
def Obligations.LatencyBounded : Prop :=
  ∀ s : State, Inv s → s.inFlight ≠ [] → noResetIn s.headWait s = true →
    s.headWait < Config.latencyMax ∧ (stateAfter s.headWait s).rspValid = true

/-- R275: with fewer than DEPTH commands in flight and `rst` = 0 throughout, the DAU sets `cmd_ready` = 1 when the drawn wait is
over. That the open moment of R275 is a drawn number of cycles is the model's choice (log entry 7). -/
def Obligations.ReadyOfferedAgain : Prop :=
  ∀ s : State, 0 < s.readyWait →
    (∀ k, k ≤ s.readyWait →
      (stateAfter k s).ins.rst = false ∧ (stateAfter k s).inFlight.length < Config.depth) →
    (stateAfter s.readyWait s).cmdReady = true

/-- R275: when DEPTH commands are in flight `cmd_ready` is 0 outside reset, no command is accepted, and only the host's taking
of a response ends that: until then the same commands stay in flight. -/
def Obligations.FullUnitAcceptsNothing : Prop :=
  ∀ s : State, Inv s → s.ins.rst = false → s.inFlight.length = Config.depth →
    s.cmdReady = false ∧ acceptedNow s = [] ∧
      ∀ t, step s = .next t → takenNow s = [] → t.inFlight = s.inFlight

/-- The frame of every instruction: `exec` adds the command on the port, with a response, behind the commands in flight, and
leaves every other piece of the state as it is (R251, R56). That the response stands with the command from its acceptance on is
the model's choice (log entry 10). -/
def Obligations.InstructionFrame : Prop :=
  ∀ (i : Instr) (s t : State), exec i s = .next t →
    t.ins = s.ins ∧ t.cmdReady = s.cmdReady ∧ t.rspValid = s.rspValid ∧ t.rspStatus = s.rspStatus ∧
    t.rspR0 = s.rspR0 ∧ t.rspR1 = s.rspR1 ∧ t.headWait = s.headWait ∧ t.readyWait = s.readyWait ∧
    t.script = s.script ∧ t.cycle = s.cycle ∧
    ∃ r, t.inFlight = s.inFlight ++ [{ command := presented s, response := r }]

/-- R32, R56, R57: every instruction completes in every state, and with the same response in any two states that present the
same command, that of its operation for the two operand words: no other command, no draw and no other port has a part in it. -/
def Obligations.ResponseOfCommandAlone : Prop :=
  ∀ (i : Instr) (s s' : State), presented s = presented s' →
    Completes i s (responseOf (resultOf i s.ins.cmdA s.ins.cmdB)) ∧
    Completes i s' (responseOf (resultOf i s.ins.cmdA s.ins.cmdB))

/-! ## Statuses -/

/-- R245, with the codes of R241: the eight statuses have the codes 0 to 7, and no command is answered with code 4,
INCOMPATIBLE_SCALE. -/
def Obligations.NeverIncompatibleScale : Prop :=
  (statusCode .ok = 0 ∧ statusCode (.error .overflow) = 1 ∧ statusCode (.error .divByZero) = 2 ∧
    statusCode (.error .inexact) = 3 ∧ statusCode (.error .incompatibleScale) = 4 ∧
    statusCode (.error .invalidScale) = 5 ∧ statusCode (.error .invalidOperand) = 6 ∧
    statusCode (.error .illegalCommand) = 7) ∧
  ∀ c : Command, statusCode (answer c).status ≠ 4

/-- R33, R251: a response that is not OK has R0 = R1 = 0, and only DIVREM answers an R1 that is not 0. -/
def Obligations.ResultWordConventions : Prop :=
  ∀ c : Command,
    ((answer c).status ≠ .ok → (answer c).r0 = 0 ∧ (answer c).r1 = 0) ∧
    ((answer c).r1 ≠ 0 → ∃ f, decode c.word = .ok (.divrem f))

/-- R250, with R242 and R244: each operation raises exactly the errors of its row, OVERFLOW only under CHECKED and INEXACT only
under UNNECESSARY. -/
def Obligations.ErrorsOfEachOperation : Prop :=
  (∀ (i : Instr) (A B : Word) (e : Err), resultOf i A B = .error e →
    e ∈ errorsOf i ∧
    (e = .overflow → ∃ rm, i.fields.policy = .given rm .checked) ∧
    (e = .inexact → ∃ om, i.fields.policy = .given .unnecessary om)) ∧
  ∀ (i : Instr) (e : Err), e ∈ errorsOf i →
    ∃ g A B, g.wellFormed = true ∧ resultOf (withFields g i) A B = .error e

/-- R36, R37: a command that supplies no policy answers as the same command under (HALF_UP, UNCHECKED), or under (FLOOR,
UNCHECKED) for SHL and SHR. -/
def Obligations.DefaultPolicies : Prop :=
  ∀ (i : Instr) (k : Nat) (A B : Word),
    resultOf (withFields ⟨k, .noPolicy⟩ i) A B =
      resultOf (withFields ⟨k, .given (if isShift i then .floor else .halfUp) .unchecked⟩ i) A B

/-- R81: the operations marked "no" in the rm column answer alike under every rounding mode, those marked "no" in the chk column
under every overflow mode; SHL reads the rounding mode only for a negative distance, and SHR the overflow mode only for a
negative one. -/
def Obligations.PolicyIndependence : Prop :=
  (∀ (i : Instr) (k : Nat) (m m' : RoundingMode) (om : OverflowMode) (A B : Word), ignoresRounding i = true →
    resultOf (withFields ⟨k, .given m om⟩ i) A B = resultOf (withFields ⟨k, .given m' om⟩ i) A B) ∧
  (∀ (i : Instr) (k : Nat) (m : RoundingMode) (om om' : OverflowMode) (A B : Word), ignoresOverflow i = true →
    resultOf (withFields ⟨k, .given m om⟩ i) A B = resultOf (withFields ⟨k, .given m om'⟩ i) A B) ∧
  (∀ (k : Nat) (m m' : RoundingMode) (om : OverflowMode) (A B : Word), 0 ≤ B.toInt →
    resultOf (.shl ⟨k, .given m om⟩) A B = resultOf (.shl ⟨k, .given m' om⟩) A B) ∧
  (∀ (k : Nat) (m : RoundingMode) (om om' : OverflowMode) (A B : Word), 0 ≤ B.toInt →
    resultOf (.shr ⟨k, .given m om⟩) A B = resultOf (.shr ⟨k, .given m om'⟩) A B)

/-! ## The datapath -/

/-- R116, R113, R114: RoundDiv answers the exact quotient rounded to an integer by the mode, and raises INEXACT exactly when the
mode is UNNECESSARY and the division is not exact. -/
def Obligations.RoundingLaw : Prop :=
  ∀ (n d : Int) (rm : RoundingMode), d ≠ 0 →
    (∀ v, roundDiv n d rm = .ok v ↔ IsRounding rm n d v) ∧
    (∀ e, roundDiv n d rm = .error e ↔ e = .inexact ∧ rm = .unnecessary ∧ ¬ d ∣ n)

/-- R120: RoundDiv(-N, D, rm) = -RoundDiv(N, D, mirror(rm)), and the two raise INEXACT together. -/
def Obligations.RoundingMirror : Prop :=
  ∀ (n d : Int) (rm : RoundingMode), d ≠ 0 →
    (∀ v, roundDiv (-n) d rm = .ok v ↔ roundDiv n d (mirror rm) = .ok (-v)) ∧
    (roundDiv (-n) d rm = .error .inexact ↔ roundDiv n d (mirror rm) = .error .inexact)

/-- R100, R101, R105: the table answers for the scales 0 to 18 and for no other integer; its scale factor is 10^s, and x * 10^s
is in the 64-bit range exactly when x lies between its two bounds. -/
def Obligations.ScaleMetricsBounds : Prop :=
  (∀ t : Int, (t < 0 ∨ 18 < t) → scaleMetrics t = .error .invalidScale) ∧
  ∀ s : Nat, s ≤ 18 → ∃ m, scaleMetrics s = .ok m ∧ m.scaleFactor = 10 ^ s ∧ InRange m.scaleFactor ∧
    ∀ x : Int, InRange (x * 10 ^ s) ↔ m.minIntegerValue ≤ x ∧ x ≤ m.maxIntegerValue

/-- R122: a sum is out of range, and ADD answers OVERFLOW under CHECKED, exactly when the operands have one sign bit and the
wrapped sum the other; for a difference and SUB, exactly when the operands have different sign bits and the wrapped difference a
sign bit different from the first operand's. -/
def Obligations.SignTestOverflow : Prop :=
  ∀ (k : Nat) (rm : RoundingMode) (A B : Word),
    (¬ InRange (A.toInt + B.toInt) ↔ A.msb = B.msb ∧ (A + B).msb ≠ A.msb) ∧
    (resultOf (.add ⟨k, .given rm .checked⟩) A B = .error .overflow ↔ A.msb = B.msb ∧ (A + B).msb ≠ A.msb) ∧
    (¬ InRange (A.toInt - B.toInt) ↔ A.msb ≠ B.msb ∧ (A - B).msb ≠ A.msb) ∧
    (resultOf (.sub ⟨k, .given rm .checked⟩) A B = .error .overflow ↔ A.msb ≠ B.msb ∧ (A - B).msb ≠ A.msb)

/-! ## The operations -/

/-- R140: ADD answers the wrapped sum when the sum fits or the mode is UNCHECKED, else OVERFLOW. -/
def Obligations.AddAnswers : Prop :=
  ∀ (f : Fields) (s : State), opcodeOf (.add f) = 0x01 ∧
    Completes (.add f) s
      (if InRange (s.ins.cmdA.toInt + s.ins.cmdB.toInt) ∨ (generalPolicy f).om = .unchecked
        then ⟨.ok, s.ins.cmdA + s.ins.cmdB, 0⟩ else failed .overflow)

/-- R141: SUB answers the wrapped difference when the difference fits or the mode is UNCHECKED, else OVERFLOW. -/
def Obligations.SubAnswers : Prop :=
  ∀ (f : Fields) (s : State), opcodeOf (.sub f) = 0x02 ∧
    Completes (.sub f) s
      (if InRange (s.ins.cmdA.toInt - s.ins.cmdB.toInt) ∨ (generalPolicy f).om = .unchecked
        then ⟨.ok, s.ins.cmdA - s.ins.cmdB, 0⟩ else failed .overflow)

/-- R150: MUL answers a * b / 10^s, rounded and then range-checked. -/
def Obligations.MulAnswers : Prop :=
  ∀ (f : Fields) (s : State), opcodeOf (.mul f) = 0x03 ∧
    AnswersRounded (.mul f) s (generalPolicy f) (s.ins.cmdA.toInt * s.ins.cmdB.toInt) (10 ^ f.scale)

/-- R151: MULL answers the low 64 bits of a * n when the product fits or the mode is UNCHECKED, else OVERFLOW. -/
def Obligations.MullAnswers : Prop :=
  ∀ (f : Fields) (s : State), opcodeOf (.mull f) = 0x04 ∧
    Completes (.mull f) s
      (if InRange (s.ins.cmdA.toInt * s.ins.cmdB.toInt) ∨ (generalPolicy f).om = .unchecked
        then ⟨.ok, s.ins.cmdA * s.ins.cmdB, 0⟩ else failed .overflow)

/-- R160: DIV answers DIV_BY_ZERO for b = 0 under every policy, else a * 10^s / b, rounded and then range-checked. -/
def Obligations.DivAnswers : Prop :=
  ∀ (f : Fields) (s : State), opcodeOf (.div f) = 0x05 ∧
    (s.ins.cmdB = 0 → Completes (.div f) s (failed .divByZero)) ∧
    (s.ins.cmdB ≠ 0 →
      AnswersRounded (.div f) s (generalPolicy f) (s.ins.cmdA.toInt * 10 ^ f.scale) s.ins.cmdB.toInt)

/-- R161: DIVL answers DIV_BY_ZERO for n = 0, else a / n, rounded and then range-checked; its only overflow is INT64_MIN / -1. -/
def Obligations.DivlAnswers : Prop :=
  ∀ (f : Fields) (s : State), opcodeOf (.divl f) = 0x06 ∧
    (s.ins.cmdB = 0 → Completes (.divl f) s (failed .divByZero)) ∧
    (s.ins.cmdB ≠ 0 → AnswersRounded (.divl f) s (generalPolicy f) s.ins.cmdA.toInt s.ins.cmdB.toInt) ∧
    (Completes (.divl f) s (failed .overflow) ↔
      (generalPolicy f).om = .checked ∧ s.ins.cmdA.toInt = -(2 ^ 63) ∧ s.ins.cmdB.toInt = -1)

/-- R170: SQR answers a * a / 10^s, rounded and then range-checked, and for every operand and policy what MUL answers for a
and a. -/
def Obligations.SqrAnswers : Prop :=
  ∀ (f : Fields) (s : State), opcodeOf (.sqr f) = 0x07 ∧
    AnswersRounded (.sqr f) s (generalPolicy f) (s.ins.cmdA.toInt * s.ins.cmdA.toInt) (10 ^ f.scale) ∧
    ∀ A B, resultOf (.sqr f) A B = resultOf (.mul f) A A

/-- R171: SQRT answers INVALID_OPERAND for a < 0 under every policy; else the square root of a * 10^s rounded to an integer by
the mode, which always fits, or INEXACT under UNNECESSARY when a * 10^s is no square. -/
def Obligations.SqrtAnswers : Prop :=
  ∀ (f : Fields) (s : State), f.wellFormed = true →
    opcodeOf (.sqrt f) = 0x08 ∧
    (s.ins.cmdA.toInt < 0 → Completes (.sqrt f) s (failed .invalidOperand)) ∧
    (0 ≤ s.ins.cmdA.toInt →
      (∀ v, IsRoundedRoot (generalPolicy f).rm (s.ins.cmdA.toInt * 10 ^ f.scale) v →
        InRange v ∧ Completes (.sqrt f) s (single v)) ∧
      ((generalPolicy f).rm = .unnecessary → (∀ v : Int, v * v ≠ s.ins.cmdA.toInt * 10 ^ f.scale) →
        Completes (.sqrt f) s (failed .inexact)))

/-- R172: POW answers ONE for n = 0; for n > 0 what its loop ends with from base a and accumulator ONE, each step the whole of
MUL under the same fields; for n < 0 the error of INV for a, or what the loop ends with from INV's result for the exponent -n. -/
def Obligations.PowAnswers : Prop :=
  ∀ (f : Fields) (s : State), f.wellFormed = true →
    opcodeOf (.pow f) = 0x09 ∧
    (s.ins.cmdB.toInt = 0 → Completes (.pow f) s (single (10 ^ f.scale))) ∧
    (0 < s.ins.cmdB.toInt → ∀ r,
      PowLoopEnds (mulOfCommand f) s.ins.cmdB.toInt.toNat s.ins.cmdA.toInt (10 ^ f.scale) r →
      Completes (.pow f) s (outcomeOf r)) ∧
    (s.ins.cmdB.toInt < 0 →
      (∀ e, resultOf (.inv f) s.ins.cmdA 0 = .error e → Completes (.pow f) s (failed e)) ∧
      (∀ base, resultOf (.inv f) s.ins.cmdA 0 = .ok (base, 0) → ∀ r,
        PowLoopEnds (mulOfCommand f) (-s.ins.cmdB.toInt).toNat base.toInt (10 ^ f.scale) r →
        Completes (.pow f) s (outcomeOf r)))

/-- R172, R117: at scale 0 and for n ≥ 0 POW is the exact power, range-checked, although it checks or wraps every step. -/
def Obligations.PowAtScaleZero : Prop :=
  ∀ (p : Policy) (s : State), 0 ≤ s.ins.cmdB.toInt →
    Completes (.pow ⟨0, p⟩) s (fitted (generalPolicy ⟨0, p⟩).om (s.ins.cmdA.toInt ^ s.ins.cmdB.toInt.toNat))

/-- R172: n = 1 returns a, and n = -1 returns the response of INV, under every policy. -/
def Obligations.PowOfUnitExponents : Prop :=
  ∀ (f : Fields) (A B : Word), resultOf (.pow f) A 1 = .ok (A, 0) ∧ resultOf (.pow f) A (-1) = resultOf (.inv f) A B

/-- R180: SHL answers a * 2^n, range-checked, for n ≥ 0, and a / 2^(-n), rounded and then range-checked, for n < 0, at any
64-bit distance. -/
def Obligations.ShlAnswers : Prop :=
  ∀ (f : Fields) (s : State), opcodeOf (.shl f) = 0x0A ∧
    AnswersRounded (.shl f) s (shiftPolicy f)
      (s.ins.cmdA.toInt * 2 ^ s.ins.cmdB.toInt.toNat) (2 ^ (-s.ins.cmdB.toInt).toNat)

/-- R181: SHR answers a / 2^n, rounded and then range-checked, for n ≥ 0, and a * 2^(-n), range-checked, for n < 0, at any
64-bit distance. -/
def Obligations.ShrAnswers : Prop :=
  ∀ (f : Fields) (s : State), opcodeOf (.shr f) = 0x0B ∧
    AnswersRounded (.shr f) s (shiftPolicy f)
      (s.ins.cmdA.toInt * 2 ^ (-s.ins.cmdB.toInt).toNat) (2 ^ s.ins.cmdB.toInt.toNat)

/-- R181: under FLOOR, and so under its default policy, SHR by 0 to 63 is the arithmetic right shift of the word. -/
def Obligations.ShrFloorIsArithmeticShift : Prop :=
  ∀ (f : Fields) (s : State), (shiftPolicy f).rm = .floor → 0 ≤ s.ins.cmdB.toInt → s.ins.cmdB.toInt ≤ 63 →
    Completes (.shr f) s ⟨.ok, s.ins.cmdA.sshiftRight s.ins.cmdB.toNat, 0⟩

/-- R182: ROUND answers a for a precision p ≥ s under every policy; else a rounded to a multiple of 10^(s - p) and then
range-checked, INEXACT under UNNECESSARY when 10^(s - p) does not divide a. -/
def Obligations.RoundAnswers : Prop :=
  ∀ (f : Fields) (s : State), opcodeOf (.round f) = 0x0C ∧
    ((f.scale : Int) ≤ s.ins.cmdB.toInt → Completes (.round f) s ⟨.ok, s.ins.cmdA, 0⟩) ∧
    (s.ins.cmdB.toInt < f.scale →
      (∀ v, IsRounding (generalPolicy f).rm s.ins.cmdA.toInt (10 ^ ((f.scale : Int) - s.ins.cmdB.toInt).toNat) v →
        Completes (.round f) s
          (fitted (generalPolicy f).om (v * 10 ^ ((f.scale : Int) - s.ins.cmdB.toInt).toNat))) ∧
      ((generalPolicy f).rm = .unnecessary →
        ¬ (10 : Int) ^ ((f.scale : Int) - s.ins.cmdB.toInt).toNat ∣ s.ins.cmdA.toInt →
        Completes (.round f) s (failed .inexact)))

/-- R182: a value ROUND answers under CHECKED is left unchanged by ROUND at the same precision. -/
def Obligations.RoundIdempotent : Prop :=
  ∀ (k : Nat) (rm : RoundingMode) (A B X Y : Word),
    resultOf (.round ⟨k, .given rm .checked⟩) A B = .ok (X, Y) →
    ∀ g : Fields, g.scale = k → resultOf (.round g) X B = .ok (X, 0)

/-- R190: AVG answers (a + b) / 2 rounded by the mode, which lies between a and b and never overflows. -/
def Obligations.AvgAnswers : Prop :=
  ∀ (f : Fields) (s : State), opcodeOf (.avg f) = 0x0D ∧
    AnswersInRange (.avg f) s (generalPolicy f).rm (s.ins.cmdA.toInt + s.ins.cmdB.toInt) 2 ∧
    ∀ v, IsRounding (generalPolicy f).rm (s.ins.cmdA.toInt + s.ins.cmdB.toInt) 2 v →
      min s.ins.cmdA.toInt s.ins.cmdB.toInt ≤ v ∧ v ≤ max s.ins.cmdA.toInt s.ins.cmdB.toInt

/-- R191: INV answers DIV_BY_ZERO for a = 0 under every policy, else 10^(2s) / a, rounded and then range-checked. -/
def Obligations.InvAnswers : Prop :=
  ∀ (f : Fields) (s : State), opcodeOf (.inv f) = 0x0E ∧
    (s.ins.cmdA = 0 → Completes (.inv f) s (failed .divByZero)) ∧
    (s.ins.cmdA ≠ 0 → AnswersRounded (.inv f) s (generalPolicy f) (10 ^ (2 * f.scale)) s.ins.cmdA.toInt)

/-- R192: CMP answers the all-ones word, 0 or 1 as a is less than, equal to or greater than b, over the full range. -/
def Obligations.CmpAnswers : Prop :=
  ∀ (f : Fields) (s : State), opcodeOf (.cmp f) = 0x0F ∧
    (s.ins.cmdA.slt s.ins.cmdB = true → Completes (.cmp f) s ⟨.ok, 0xFFFFFFFFFFFFFFFF, 0⟩) ∧
    (s.ins.cmdA = s.ins.cmdB → Completes (.cmp f) s ⟨.ok, 0, 0⟩) ∧
    (s.ins.cmdB.slt s.ins.cmdA = true → Completes (.cmp f) s ⟨.ok, 1, 0⟩)

/-- R193: SGN answers the all-ones word, 0 or 1 as a is negative, zero or positive. -/
def Obligations.SgnAnswers : Prop :=
  ∀ (f : Fields) (s : State), opcodeOf (.sgn f) = 0x10 ∧
    (s.ins.cmdA.msb = true → Completes (.sgn f) s ⟨.ok, 0xFFFFFFFFFFFFFFFF, 0⟩) ∧
    (s.ins.cmdA = 0 → Completes (.sgn f) s ⟨.ok, 0, 0⟩) ∧
    (s.ins.cmdA.msb = false → s.ins.cmdA ≠ 0 → Completes (.sgn f) s ⟨.ok, 1, 0⟩)

/-- R200: DIVI answers DIV_BY_ZERO for b = 0, else the quotient truncated toward zero as a value at the scale, range-checked. -/
def Obligations.DiviAnswers : Prop :=
  ∀ (f : Fields) (s : State), opcodeOf (.divi f) = 0x11 ∧
    (s.ins.cmdB = 0 → Completes (.divi f) s (failed .divByZero)) ∧
    ∀ q r, IsTruncatedDivision s.ins.cmdA.toInt s.ins.cmdB.toInt q r →
      Completes (.divi f) s (fitted (generalPolicy f).om (q * 10 ^ f.scale))

/-- R201: REM answers DIV_BY_ZERO for b = 0, else the remainder of the truncated quotient, which always fits. -/
def Obligations.RemAnswers : Prop :=
  ∀ (f : Fields) (s : State), opcodeOf (.rem f) = 0x12 ∧
    (s.ins.cmdB = 0 → Completes (.rem f) s (failed .divByZero)) ∧
    ∀ q r, IsTruncatedDivision s.ins.cmdA.toInt s.ins.cmdB.toInt q r →
      InRange r ∧ Completes (.rem f) s (single r)

/-- R202: DIVREM answers DIV_BY_ZERO for b = 0, else DIVI's quotient and REM's remainder, or OVERFLOW and neither. -/
def Obligations.DivremAnswers : Prop :=
  ∀ (f : Fields) (s : State), opcodeOf (.divrem f) = 0x13 ∧
    (s.ins.cmdB = 0 → Completes (.divrem f) s (failed .divByZero)) ∧
    ∀ q r, IsTruncatedDivision s.ins.cmdA.toInt s.ins.cmdB.toInt q r →
      Completes (.divrem f) s
        (if InRange (q * 10 ^ f.scale) ∨ (generalPolicy f).om = .unchecked
          then ⟨.ok, BitVec.ofInt 64 (q * 10 ^ f.scale), BitVec.ofInt 64 r⟩ else failed .overflow)

/-- R203: whenever DIVREM answers OK without wrapping, its first result is an integer Q at the scale, Q * b + r = a, and
|r| < |b|. -/
def Obligations.DivisionIdentity : Prop :=
  ∀ (f : Fields) (A B q r : Word), resultOf (.divrem f) A B = .ok (q, r) →
    InRange (A.toInt.tdiv B.toInt * 10 ^ f.scale) →
    ∃ Q : Int, q.toInt = Q * 10 ^ f.scale ∧ Q * B.toInt + r.toInt = A.toInt ∧ |r.toInt| < |B.toInt|

/-- R210: FROMLONG answers the low 64 bits of n * 10^s when n lies within the scale's integer bounds or the mode is UNCHECKED,
else OVERFLOW. -/
def Obligations.FromlongAnswers : Prop :=
  ∀ (f : Fields) (s : State), opcodeOf (.fromlong f) = 0x14 ∧
    Completes (.fromlong f) s
      (if ((-(2 ^ 63) : Int).tdiv (10 ^ f.scale) ≤ s.ins.cmdA.toInt ∧
            s.ins.cmdA.toInt ≤ (2 ^ 63 - 1 : Int) / 10 ^ f.scale) ∨ (generalPolicy f).om = .unchecked
        then ⟨.ok, s.ins.cmdA * 10 ^ f.scale, 0⟩ else failed .overflow)

/-- R211: FROMUNSC answers INVALID_SCALE for a source scale outside 0 to 18; else a brought from the source scale t to the
scale s: a / 10^(t - s), rounded and then range-checked, for t > s; a for t = s; a * 10^(s - t), range-checked, for t < s. -/
def Obligations.FromunscAnswers : Prop :=
  ∀ (f : Fields) (s : State), opcodeOf (.fromunsc f) = 0x15 ∧
    (s.ins.cmdB.toInt < 0 ∨ 18 < s.ins.cmdB.toInt → Completes (.fromunsc f) s (failed .invalidScale)) ∧
    (0 ≤ s.ins.cmdB.toInt → s.ins.cmdB.toInt ≤ 18 →
      AnswersRounded (.fromunsc f) s (generalPolicy f)
        (s.ins.cmdA.toInt * 10 ^ ((f.scale : Int) - s.ins.cmdB.toInt).toNat)
        (10 ^ (s.ins.cmdB.toInt - (f.scale : Int)).toNat))

/-- R212, R54: FROMDBL answers INVALID_OPERAND for an infinity or a NaN under every policy; else the exact value m * 2^k of the
pattern times 10^s, rounded and then range-checked. -/
def Obligations.FromdblAnswers : Prop :=
  ∀ (f : Fields) (s : State), opcodeOf (.fromdbl f) = 0x16 ∧
    let e := exponentField s.ins.cmdA
    let m : Int := (if signField s.ins.cmdA then -1 else 1) *
      (if e = 0 then fractionField s.ins.cmdA else 2 ^ 52 + fractionField s.ins.cmdA : Nat)
    let k : Int := if e = 0 then -1074 else (e : Int) - 1075
    (e = 2047 → Completes (.fromdbl f) s (failed .invalidOperand)) ∧
    (e ≠ 2047 → AnswersRounded (.fromdbl f) s (generalPolicy f) (m * 2 ^ k.toNat * 10 ^ f.scale) (2 ^ (-k).toNat))

/-- R213: TOLONG answers a / 10^s rounded to an integer by the mode, which always fits. -/
def Obligations.TolongAnswers : Prop :=
  ∀ (f : Fields) (s : State), opcodeOf (.tolong f) = 0x17 ∧
    AnswersInRange (.tolong f) s (generalPolicy f).rm s.ins.cmdA.toInt (10 ^ f.scale)

/-- R214, R54: TODBL answers the zero word for a = 0; else a / 10^s rounded to binary64 by the mode, a normal finite pattern
with biased exponent 963 to 1086 and the sign of a, or INEXACT under UNNECESSARY when a / 10^s is no binary64 value. -/
def Obligations.TodblAnswers : Prop :=
  ∀ (f : Fields) (s : State), f.wellFormed = true →
    opcodeOf (.todbl f) = 0x18 ∧
    (s.ins.cmdA = 0 → Completes (.todbl f) s ⟨.ok, 0, 0⟩) ∧
    (s.ins.cmdA ≠ 0 →
      let x : ℚ := |(s.ins.cmdA.toInt : ℚ)| / 10 ^ f.scale
      let negative := decide (s.ins.cmdA.toInt < 0)
      ((generalPolicy f).rm ≠ .unnecessary ∨ (∃ m, magnitudeOf m = x) →
        ∃ m, 963 ≤ m / 2 ^ 52 ∧ m / 2 ^ 52 ≤ 1086 ∧ IsRoundedPattern (generalPolicy f).rm negative x m ∧
          Completes (.todbl f) s ⟨.ok, signedPattern negative m, 0⟩) ∧
      ((generalPolicy f).rm = .unnecessary → (∀ m, magnitudeOf m ≠ x) →
        Completes (.todbl f) s (failed .inexact)))

/-- R212, R214: a value that TODBL converts exactly comes back from FROMDBL at the same scale, under every policy. -/
def Obligations.ExactDoubleRoundTrip : Prop :=
  ∀ (k : Nat) (om : OverflowMode) (p : Policy) (A D : Word), k ≤ 18 →
    resultOf (.todbl ⟨k, .given .unnecessary om⟩) A 0 = .ok (D, 0) →
    resultOf (.fromdbl ⟨k, p⟩) D 0 = .ok (A, 0)

/-! ## Host-side text -/

/-- R230 to R232: parsing the rendered text of a 64-bit value at its own scale gives the value back under every policy. -/
def Obligations.ParseOfRender : Prop :=
  ∀ (a : Int) (s : Nat) (rm : RoundingMode) (om : OverflowMode), InRange a → s ≤ 18 →
    parse (render a s) s rm om = .ok a

/-- R232, R211: PARSE of an accepted text with at most 18 fraction digits, whose digits' integer fits 64 bits, is FROMUNSC of
that integer at the source scale of its fraction digits. -/
def Obligations.ParseByFromunsc : Prop :=
  ∀ (t : List Char) (d : DecimalText) (s : Nat) (rm : RoundingMode) (om : OverflowMode),
    scanDecimal t = some d → d.fraction ≤ 18 → InRange d.signed → s ≤ 18 →
    responseOf (resultOf (.fromunsc ⟨s, .given rm om⟩) (BitVec.ofInt 64 d.signed) (BitVec.ofNat 64 d.fraction)) =
      outcomeOf (parse t s rm om)

/-- R83: ONE answers OK 10^k; NEG answers the wrapped negation, but OVERFLOW for INT64_MIN under CHECKED. -/
def Obligations.PseudoInstructions : Prop :=
  (∀ k, k ≤ 18 → answer (pseudoOne k) = single (10 ^ k)) ∧
  (∀ (f : Fields) (A : Word), f.wellFormed = true →
    answer (pseudoNeg f A) =
      if A.toInt = -(2 ^ 63) ∧ (generalPolicy f).om = .checked then failed .overflow else ⟨.ok, -A, 0⟩)
end

