-- ==== Sys2Proof/Laws/Datapath.lean ====
section
/-! SUPPORT. What each datapath function can answer, said once: the width helpers, the integer square root, the scale-metrics
lookup, the divider, the rounding selector and the overflow detector. -/

namespace Sys2Proof.Laws

open Sys2Proof.Machine

/-! ## Width helpers -/

/-- Wrapping is writing the low 64 bits and reading them back. -/
theorem wrap64_eq (v : Int) : wrap64 v = sint64 (bits64 v) := by
  simp only [wrap64, sint64, bits64, BitVec.toInt_ofInt, Int.bmod_def]
  split <;> omega

/-- The bits of a wrapped value are the bits of the value. -/
@[simp] theorem bits64_wrap64 (v : Int) : bits64 (wrap64 v) = bits64 v := by
  rw [wrap64_eq, sint64, bits64, BitVec.ofInt_toInt]

@[simp] theorem bits64_sint64 (x : Word) : bits64 (sint64 x) = x := BitVec.ofInt_toInt

theorem sint64_min_le (x : Word) : int64Min ≤ sint64 x := by
  have := BitVec.le_toInt x
  simpa [int64Min, sint64] using this

theorem sint64_le_max (x : Word) : sint64 x ≤ int64Max := by
  have := BitVec.toInt_lt (x := x)
  simp [int64Max, sint64] at *
  omega

/-- The magnitude of an operand word is at most 2^63. -/
theorem abs_sint64_le (x : Word) : |sint64 x| ≤ 2 ^ 63 := by
  have h1 := sint64_min_le x
  have h2 := sint64_le_max x
  rw [abs_le]
  constructor <;> simp only [int64Min, int64Max] at * <;> omega

theorem fits64_iff (v : Int) : fits64 v = true ↔ int64Min ≤ v ∧ v ≤ int64Max := by
  simp [fits64]

theorem fits64_sint64 (x : Word) : fits64 (sint64 x) = true :=
  (fits64_iff _).mpr ⟨sint64_min_le x, sint64_le_max x⟩

/-- A value that fits is read back from its own bits. -/
theorem sint64_bits64 {v : Int} (h : fits64 v = true) : sint64 (bits64 v) = v := by
  obtain ⟨h1, h2⟩ := (fits64_iff v).mp h
  rw [← wrap64_eq, wrap64]
  simp only [int64Min, int64Max] at *
  omega

/-! ## Overflow detector -/

theorem fit_of_fits {v : Int} (h : fits64 v = true) (om : OverflowMode) : fit v om = .ok v := by
  simp [fit, h]

theorem fit_checked {v : Int} (h : fits64 v = false) : fit v .checked = .error .overflow := by
  simp [fit, h]

theorem fit_unchecked (v : Int) : respondWith (fit v .unchecked) = respond1 v := by
  unfold fit
  split
  · rfl
  · simp [respondWith, respond1, respond2]

/-- The overflow detector raises OVERFLOW and nothing else, under CHECKED and for a value that does not fit. -/
theorem fit_error {v : Int} {om : OverflowMode} {e : Err} (h : fit v om = .error e) :
    e = .overflow ∧ om = .checked ∧ fits64 v = false := by
  unfold fit at h
  split at h
  · cases h
  · rename_i hv
    cases om with
    | checked => exact ⟨(Except.error.inj h).symm, rfl, Bool.eq_false_iff.mpr hv⟩
    | unchecked => cases h

/-- Zero fits. -/
theorem fits64_zero : fits64 0 = true := by decide

/-- What a range check answers depends only on whether the value fits and on the value's low 64 bits. -/
theorem fit_congr {v w : Int} (hf : fits64 v = fits64 w) (hv : fits64 v = true → v = w) (hw : wrap64 v = wrap64 w)
    (om : OverflowMode) : fit v om = fit w om := by
  unfold fit
  rw [← hf]
  split
  · rw [hv ‹_›]
  · cases om <;> simp [hw]

/-! ## Divider -/

/-- The truncated quotient and the exact remainder make the numerator; the remainder is smaller than the divisor and has the
numerator's sign (R108, R11). -/
theorem divider_spec {d : Int} (n : Int) (hd : d ≠ 0) :
    n = (divider n d).1 * d + (divider n d).2 ∧ |(divider n d).2| < |d| ∧
      ((divider n d).2 = 0 ∨ (divider n d).2.sign = n.sign) := by
  have hrem : n - n.tdiv d * d = n.tmod d := by rw [Int.tmod_def, Int.mul_comm]
  simp only [divider, tdiv, hrem]
  refine ⟨by rw [← hrem]; ring, ?_, ?_⟩
  · rw [Int.abs_eq_natAbs, Int.abs_eq_natAbs, Int.natAbs_tmod]
    exact_mod_cast Nat.mod_lt _ (Int.natAbs_pos.mpr hd)
  · rcases lt_trichotomy (n.tmod d) 0 with h | h | h
    · have hn : n < 0 := by
        by_contra hc
        have := Int.tmod_nonneg d (show 0 ≤ n by omega)
        omega
      exact .inr (by rw [Int.sign_eq_neg_one_of_neg h, Int.sign_eq_neg_one_of_neg hn])
    · exact .inl h
    · have hn : 0 < n := by
        by_contra hc
        have := Int.tmod_nonneg d (show 0 ≤ -n by omega)
        rw [Int.neg_tmod] at this
        omega
      exact .inr (by rw [Int.sign_eq_one_of_pos h, Int.sign_eq_one_of_pos hn])

/-! ## Rounding selector -/

/-- An exact quotient is answered as it is, under every mode (R113, R114). -/
theorem roundSel_zero (rm : RoundingMode) (sg : Int) (qodd : Bool) :
    roundSel rm sg qodd .zero = { inc := 0, inexact := false } := rfl

/-- The selector's only error is INEXACT, under UNNECESSARY (R114). -/
theorem applyRounding_error {q : Int} {rm : RoundingMode} {sg : Int} {qodd : Bool} {cls : RemainderClass} {e : Err}
    (h : applyRounding q (roundSel rm sg qodd cls) = .error e) : e = .inexact ∧ rm = .unnecessary := by
  unfold applyRounding at h
  split at h
  · refine ⟨(Except.error.inj h).symm, ?_⟩
    rename_i hi
    unfold roundSel at hi
    split at hi
    · cases hi
    · simpa using hi
  · cases h

/-- RoundDiv raises INEXACT and nothing else, under UNNECESSARY. -/
theorem roundDiv_error {n d : Int} {rm : RoundingMode} {e : Err} (h : roundDiv n d rm = .error e) :
    e = .inexact ∧ rm = .unnecessary := applyRounding_error h

/-- A numerator of 0 rounds to 0 under every mode. -/
@[simp] theorem roundDiv_zero_left (d : Int) (rm : RoundingMode) : roundDiv 0 d rm = .ok 0 := by
  simp [roundDiv, divider, tdiv, remainderClass, roundSel_zero, applyRounding]

/-- A numerator below half the divisor: the quotient is 0, and the answer is the increment of class LT_HALF. -/
theorem roundDiv_of_ltHalf {n d : Int} (hn : n ≠ 0) (h : 2 * |n| < |d|) (rm : RoundingMode) :
    roundDiv n d rm = applyRounding 0 (roundSel rm (n.sign * d.sign) false .ltHalf) := by
  have hq : n.tdiv d = 0 := by
    rw [← Int.natAbs_eq_zero, Int.natAbs_tdiv]
    rw [Int.abs_eq_natAbs, Int.abs_eq_natAbs] at h
    exact Nat.div_eq_of_lt (by omega)
  simp [roundDiv, divider, tdiv, hq, remainderClass, hn, h]

/-! ## Integer square root -/

theorem isqrtFrom_spec (n : Nat) : ∀ (bits r : Nat), r * r ≤ n → n < (r + 2 ^ bits) * (r + 2 ^ bits) →
    isqrtFrom n bits r * isqrtFrom n bits r ≤ n ∧ n < (isqrtFrom n bits r + 1) * (isqrtFrom n bits r + 1) := by
  intro bits
  induction bits with
  | zero => intro r h1 h2; exact ⟨h1, h2⟩
  | succ bits ih =>
    intro r h1 h2
    unfold isqrtFrom
    split
    · rename_i h
      refine ih _ h ?_
      have : r + 2 ^ (bits + 1) = r + 2 ^ bits + 2 ^ bits := by rw [pow_succ]; omega
      rwa [this] at h2
    · rename_i h
      exact ih _ h1 (by omega)

/-- The integer square root is the largest integer whose square is at most the radicand (R11). -/
theorem isqrt_spec {n : Nat} (h : n < 2 ^ 128) :
    isqrt n * isqrt n ≤ n ∧ n < (isqrt n + 1) * (isqrt n + 1) := by
  refine isqrtFrom_spec n 64 0 (by simp) ?_
  calc n < 2 ^ 128 := h
    _ = (0 + 2 ^ 64) * (0 + 2 ^ 64) := by norm_num

/-! ## Scale metrics -/

theorem pow10_pos (k : Nat) : 0 < pow10 k := by unfold pow10; positivity

theorem pow2_pos (k : Nat) : 0 < pow2 k := by unfold pow2; positivity

/-- The lookup answers exactly for the 19 supported scales (R101, R246). -/
theorem scaleMetrics_of_supported {t : Int} (h0 : 0 ≤ t) (h18 : t ≤ 18) :
    scaleMetrics t = .ok (scaleEntry t.toNat) := by
  have hlt : t.toNat < 19 := by omega
  simp [scaleMetrics, scaleMetricsTable, show ¬ t < 0 by omega, hlt]

theorem scaleMetrics_of_unsupported {t : Int} (h : t < 0 ∨ 18 < t) : scaleMetrics t = .error .invalidScale := by
  unfold scaleMetrics
  split
  · rfl
  · have hge : scaleMetricsTable[t.toNat]? = none :=
      List.getElem?_eq_none (by simp [scaleMetricsTable]; omega)
    rw [hge]

/-! ## binary64 patterns -/

@[simp] theorem binary64Word_sign (b : Bool) (e f : Int) : (binary64Word b e f).getLsbD 63 = b := by
  unfold binary64Word
  rw [BitVec.getLsbD_append]
  cases b <;> simp

end Sys2Proof.Laws
end

