-- ==== Sys2Proof/Laws/State.lean ====
section
/-! SUPPORT. One lemma per field per update of the state, each true by definition, so that no later proof unfolds a record
update. -/

namespace Sys2Proof.Laws

open Sys2Proof.Machine

variable (s t : State) (r : Response) (q : List InFlight) (w : Nat)

/-! ## A command joins the commands in flight -/

@[simp] theorem completeWith_ins : (completeWith r s).ins = s.ins := rfl
@[simp] theorem completeWith_cmdReady : (completeWith r s).cmdReady = s.cmdReady := rfl
@[simp] theorem completeWith_rspValid : (completeWith r s).rspValid = s.rspValid := rfl
@[simp] theorem completeWith_rspStatus : (completeWith r s).rspStatus = s.rspStatus := rfl
@[simp] theorem completeWith_rspR0 : (completeWith r s).rspR0 = s.rspR0 := rfl
@[simp] theorem completeWith_rspR1 : (completeWith r s).rspR1 = s.rspR1 := rfl
@[simp] theorem completeWith_inFlight :
    (completeWith r s).inFlight = s.inFlight ++ [{ command := presented s, response := r }] := rfl
@[simp] theorem completeWith_headWait : (completeWith r s).headWait = s.headWait := rfl
@[simp] theorem completeWith_readyWait : (completeWith r s).readyWait = s.readyWait := rfl
@[simp] theorem completeWith_script : (completeWith r s).script = s.script := rfl
@[simp] theorem completeWith_cycle : (completeWith r s).cycle = s.cycle := rfl

theorem complete_eq (x : Result) : complete x s = completeWith (responseOf x) s := rfl
theorem raiseError_eq (e : Err) : raiseError e s = completeWith (errorResponse e) s := rfl

/-! ## The cycle after an edge -/

@[simp] theorem nextCycle_ins : (nextCycle s q w).ins = nextInputs s := rfl
@[simp] theorem nextCycle_cmdReady : (nextCycle s q w).cmdReady = nextCmdReady s (nextInputs s).rst q := rfl
@[simp] theorem nextCycle_rspValid : (nextCycle s q w).rspValid = (!q.isEmpty && w == 0) := rfl
@[simp] theorem nextCycle_inFlight : (nextCycle s q w).inFlight = q := rfl
@[simp] theorem nextCycle_headWait : (nextCycle s q w).headWait = w := rfl
@[simp] theorem nextCycle_readyWait : (nextCycle s q w).readyWait = nextReadyWait s := rfl
@[simp] theorem nextCycle_script : (nextCycle s q w).script = s.script.tail := rfl
@[simp] theorem nextCycle_cycle : (nextCycle s q w).cycle = s.cycle + 1 := rfl
@[simp] theorem nextCycle_rspStatus_presented (e : InFlight) : (nextCycle s (e :: q) 0).rspStatus = statusCode e.response.status := rfl
@[simp] theorem nextCycle_rspStatus_empty : (nextCycle s [] w).rspStatus = Config.idleStatus s.cycle := rfl
@[simp] theorem nextCycle_rspStatus_waiting : (nextCycle s q (w + 1)).rspStatus = Config.idleStatus s.cycle := by cases q <;> rfl
@[simp] theorem nextCycle_rspR0_presented (e : InFlight) : (nextCycle s (e :: q) 0).rspR0 = e.response.r0 := rfl
@[simp] theorem nextCycle_rspR0_empty : (nextCycle s [] w).rspR0 = Config.idleR0 s.cycle := rfl
@[simp] theorem nextCycle_rspR0_waiting : (nextCycle s q (w + 1)).rspR0 = Config.idleR0 s.cycle := by cases q <;> rfl
@[simp] theorem nextCycle_rspR1_presented (e : InFlight) : (nextCycle s (e :: q) 0).rspR1 = e.response.r1 := rfl
@[simp] theorem nextCycle_rspR1_empty : (nextCycle s [] w).rspR1 = Config.idleR1 s.cycle := rfl
@[simp] theorem nextCycle_rspR1_waiting : (nextCycle s q (w + 1)).rspR1 = Config.idleR1 s.cycle := by cases q <;> rfl

theorem resetEdge_eq : resetEdge s = nextCycle s [] 0 := rfl
theorem finishEdge_eq :
    finishEdge s t = nextCycle s (afterTake s t.inFlight) (afterWait s (afterTake s t.inFlight)) := rfl

/-! ## A command placed on the port -/

variable (nbits v : Nat)

@[simp] theorem withFetchWord_rst : (s.withFetchWord nbits v).ins.rst = false := rfl
@[simp] theorem withFetchWord_cmdValid : (s.withFetchWord nbits v).ins.cmdValid = true := rfl
@[simp] theorem withFetchWord_cmdWord : (s.withFetchWord nbits v).ins.cmdWord = BitVec.ofNat 32 (v % 2 ^ nbits) := rfl
@[simp] theorem withFetchWord_cmdA : (s.withFetchWord nbits v).ins.cmdA = s.ins.cmdA := rfl
@[simp] theorem withFetchWord_cmdB : (s.withFetchWord nbits v).ins.cmdB = s.ins.cmdB := rfl
@[simp] theorem withFetchWord_rspReady : (s.withFetchWord nbits v).ins.rspReady = s.ins.rspReady := rfl
@[simp] theorem withFetchWord_cmdReady : (s.withFetchWord nbits v).cmdReady = true := rfl
@[simp] theorem withFetchWord_rspValid : (s.withFetchWord nbits v).rspValid = s.rspValid := rfl
@[simp] theorem withFetchWord_rspStatus : (s.withFetchWord nbits v).rspStatus = s.rspStatus := rfl
@[simp] theorem withFetchWord_rspR0 : (s.withFetchWord nbits v).rspR0 = s.rspR0 := rfl
@[simp] theorem withFetchWord_rspR1 : (s.withFetchWord nbits v).rspR1 = s.rspR1 := rfl
@[simp] theorem withFetchWord_inFlight : (s.withFetchWord nbits v).inFlight = s.inFlight := rfl
@[simp] theorem withFetchWord_headWait : (s.withFetchWord nbits v).headWait = s.headWait := rfl
@[simp] theorem withFetchWord_readyWait : (s.withFetchWord nbits v).readyWait = s.readyWait := rfl
@[simp] theorem withFetchWord_script : (s.withFetchWord nbits v).script = s.script := rfl
@[simp] theorem withFetchWord_cycle : (s.withFetchWord nbits v).cycle = s.cycle := rfl

/-- The placed command is accepted at the coming edge. -/
@[simp] theorem accepts_withFetchWord : accepts (s.withFetchWord nbits v) = true := rfl

end Sys2Proof.Laws
end

