-- ==== Sys2Proof/Laws/Ops.lean ====
section
/-! SUPPORT. What each shared operation over the state can do, said once: `exec` completes a command with `resultOf`, and `step`
is one of three edges. -/

namespace Sys2Proof.Laws

open Sys2Proof.Machine Sys2Proof.Safety

variable {s t : State}

/-- Every instruction completes the command on the port with its row's result, and does nothing else. -/
theorem exec_eq (i : Instr) (s : State) :
    exec i s = .next (complete (resultOf i s.ins.cmdA s.ins.cmdB) s) := by
  cases i <;> rfl

/-- Whatever `exec` answers is a next state in which the command on the port has joined the commands in flight. -/
theorem exec_next {i : Instr} (h : exec i s = .next t) :
    t = completeWith (responseOf (resultOf i s.ins.cmdA s.ins.cmdB)) s := by
  rw [exec_eq] at h
  exact (Host.Outcome.next.inj h).symm

/-- The three conditions of acceptance (R273). -/
theorem accepts_iff : accepts s = true ↔ s.ins.rst = false ∧ s.ins.cmdValid = true ∧ s.cmdReady = true := by
  simp [accepts, and_assoc]

/-- The three conditions of taking a response (R273). -/
theorem takes_iff : takes s = true ↔ s.ins.rst = false ∧ s.ins.rspReady = true ∧ s.rspValid = true := by
  simp [takes, and_assoc]

/-- A reset edge (R270). -/
theorem step_reset (h : s.ins.rst = true) : step s = .next (resetEdge s) := by
  simp [step, h]

/-- An edge at which nothing is accepted. -/
theorem step_idle (hr : s.ins.rst = false) (ha : accepts s = false) : step s = .next (finishEdge s s) := by
  simp [step, hr, ha]

/-- An edge at which a command is accepted: it joins the commands in flight with its own response (R56, R273). -/
theorem step_accept (ha : accepts s = true) :
    step s = .next (finishEdge s (completeWith (answer (presented s)) s)) := by
  have hr : s.ins.rst = false := (accepts_iff.mp ha).1
  simp only [step, hr, ha, Bool.false_eq_true, if_false, if_true]
  cases hd : decode s.ins.cmdWord with
  | error e => simp [answer, presented, hd, raiseError]
  | ok i => simp [answer, presented, hd, exec_eq, complete]

/-- What a step can do: one of these three edges, always a next state. -/
theorem step_cases (s : State) :
    (s.ins.rst = true ∧ step s = .next (resetEdge s)) ∨
    (s.ins.rst = false ∧ accepts s = false ∧ step s = .next (finishEdge s s)) ∨
    (s.ins.rst = false ∧ accepts s = true ∧
      step s = .next (finishEdge s (completeWith (answer (presented s)) s))) := by
  cases hr : s.ins.rst with
  | true => exact .inl ⟨rfl, step_reset hr⟩
  | false =>
    cases ha : accepts s with
    | false => exact .inr (.inl ⟨rfl, rfl, step_idle hr ha⟩)
    | true => exact .inr (.inr ⟨rfl, rfl, step_accept ha⟩)

/-- The state after one step is the state the step answers. -/
theorem stateAfter_one (h : step s = .next t) : stateAfter 1 s = t := by
  simp [stateAfter, h]

/-- Running `k + 1` steps is running one and then `k`. -/
theorem stateAfter_succ (k : Nat) (s : State) : stateAfter (k + 1) s = stateAfter k (stateAfter 1 s) := by
  rcases step_cases s with ⟨-, h⟩ | ⟨-, -, h⟩ | ⟨-, -, h⟩ <;> simp [stateAfter, h]

@[simp] theorem afterTake_nil : afterTake s [] = [] := by
  unfold afterTake
  split <;> rfl

@[simp] theorem afterTake_of_not_takes (h : takes s = false) (q : List InFlight) : afterTake s q = q := by
  simp [afterTake, h]

@[simp] theorem afterTake_of_takes (h : takes s = true) (q : List InFlight) : afterTake s q = q.tail := by
  simp [afterTake, h]

/-- A latency draw is below LATENCY_MAX (R276). -/
theorem latencyWait_lt (s : State) : latencyWait s < Config.latencyMax :=
  Nat.mod_lt _ (Nat.succ_pos _)

end Sys2Proof.Laws
end

