-- ==== Sys2Proof/Laws/PerInstr.lean ====
section
/-! SUPPORT. Facts about every instruction as it is written, one lemma per constructor of Instr. -/

namespace Sys2Proof.Laws

/-- The opcode of an instruction is one of 0x01 to 0x18, and the opcode map sends it back to the instruction's own operation
(R78). -/
def OpcodeRoundTrip.Statement (i : Instr) : Prop :=
  1 ≤ i.opcode ∧ i.opcode ≤ 24 ∧ (decodeOpcode i.opcode).map (· i.fields) = some i

theorem OpcodeRoundTrip.add (f : Fields) : OpcodeRoundTrip.Statement (.add f) :=
  by simp [OpcodeRoundTrip.Statement, Instr.opcode, Instr.fields, decodeOpcode]

theorem OpcodeRoundTrip.sub (f : Fields) : OpcodeRoundTrip.Statement (.sub f) :=
  by simp [OpcodeRoundTrip.Statement, Instr.opcode, Instr.fields, decodeOpcode]

theorem OpcodeRoundTrip.mul (f : Fields) : OpcodeRoundTrip.Statement (.mul f) :=
  by simp [OpcodeRoundTrip.Statement, Instr.opcode, Instr.fields, decodeOpcode]

theorem OpcodeRoundTrip.mull (f : Fields) : OpcodeRoundTrip.Statement (.mull f) :=
  by simp [OpcodeRoundTrip.Statement, Instr.opcode, Instr.fields, decodeOpcode]

theorem OpcodeRoundTrip.div (f : Fields) : OpcodeRoundTrip.Statement (.div f) :=
  by simp [OpcodeRoundTrip.Statement, Instr.opcode, Instr.fields, decodeOpcode]

theorem OpcodeRoundTrip.divl (f : Fields) : OpcodeRoundTrip.Statement (.divl f) :=
  by simp [OpcodeRoundTrip.Statement, Instr.opcode, Instr.fields, decodeOpcode]

theorem OpcodeRoundTrip.sqr (f : Fields) : OpcodeRoundTrip.Statement (.sqr f) :=
  by simp [OpcodeRoundTrip.Statement, Instr.opcode, Instr.fields, decodeOpcode]

theorem OpcodeRoundTrip.sqrt (f : Fields) : OpcodeRoundTrip.Statement (.sqrt f) :=
  by simp [OpcodeRoundTrip.Statement, Instr.opcode, Instr.fields, decodeOpcode]

theorem OpcodeRoundTrip.pow (f : Fields) : OpcodeRoundTrip.Statement (.pow f) :=
  by simp [OpcodeRoundTrip.Statement, Instr.opcode, Instr.fields, decodeOpcode]

theorem OpcodeRoundTrip.shl (f : Fields) : OpcodeRoundTrip.Statement (.shl f) :=
  by simp [OpcodeRoundTrip.Statement, Instr.opcode, Instr.fields, decodeOpcode]

theorem OpcodeRoundTrip.shr (f : Fields) : OpcodeRoundTrip.Statement (.shr f) :=
  by simp [OpcodeRoundTrip.Statement, Instr.opcode, Instr.fields, decodeOpcode]

theorem OpcodeRoundTrip.round (f : Fields) : OpcodeRoundTrip.Statement (.round f) :=
  by simp [OpcodeRoundTrip.Statement, Instr.opcode, Instr.fields, decodeOpcode]

theorem OpcodeRoundTrip.avg (f : Fields) : OpcodeRoundTrip.Statement (.avg f) :=
  by simp [OpcodeRoundTrip.Statement, Instr.opcode, Instr.fields, decodeOpcode]

theorem OpcodeRoundTrip.inv (f : Fields) : OpcodeRoundTrip.Statement (.inv f) :=
  by simp [OpcodeRoundTrip.Statement, Instr.opcode, Instr.fields, decodeOpcode]

theorem OpcodeRoundTrip.cmp (f : Fields) : OpcodeRoundTrip.Statement (.cmp f) :=
  by simp [OpcodeRoundTrip.Statement, Instr.opcode, Instr.fields, decodeOpcode]

theorem OpcodeRoundTrip.sgn (f : Fields) : OpcodeRoundTrip.Statement (.sgn f) :=
  by simp [OpcodeRoundTrip.Statement, Instr.opcode, Instr.fields, decodeOpcode]

theorem OpcodeRoundTrip.divi (f : Fields) : OpcodeRoundTrip.Statement (.divi f) :=
  by simp [OpcodeRoundTrip.Statement, Instr.opcode, Instr.fields, decodeOpcode]

theorem OpcodeRoundTrip.rem (f : Fields) : OpcodeRoundTrip.Statement (.rem f) :=
  by simp [OpcodeRoundTrip.Statement, Instr.opcode, Instr.fields, decodeOpcode]

theorem OpcodeRoundTrip.divrem (f : Fields) : OpcodeRoundTrip.Statement (.divrem f) :=
  by simp [OpcodeRoundTrip.Statement, Instr.opcode, Instr.fields, decodeOpcode]

theorem OpcodeRoundTrip.fromlong (f : Fields) : OpcodeRoundTrip.Statement (.fromlong f) :=
  by simp [OpcodeRoundTrip.Statement, Instr.opcode, Instr.fields, decodeOpcode]

theorem OpcodeRoundTrip.fromunsc (f : Fields) : OpcodeRoundTrip.Statement (.fromunsc f) :=
  by simp [OpcodeRoundTrip.Statement, Instr.opcode, Instr.fields, decodeOpcode]

theorem OpcodeRoundTrip.fromdbl (f : Fields) : OpcodeRoundTrip.Statement (.fromdbl f) :=
  by simp [OpcodeRoundTrip.Statement, Instr.opcode, Instr.fields, decodeOpcode]

theorem OpcodeRoundTrip.tolong (f : Fields) : OpcodeRoundTrip.Statement (.tolong f) :=
  by simp [OpcodeRoundTrip.Statement, Instr.opcode, Instr.fields, decodeOpcode]

theorem OpcodeRoundTrip.todbl (f : Fields) : OpcodeRoundTrip.Statement (.todbl f) :=
  by simp [OpcodeRoundTrip.Statement, Instr.opcode, Instr.fields, decodeOpcode]

/-- The bit field `w[hi:lo]` by division (R9). -/
theorem cmdField_eq (w : CmdWord) (hi lo : Nat) : cmdField w hi lo = w.toNat / 2 ^ lo % 2 ^ (hi - lo + 1) := by
  simp [cmdField, Nat.shiftRight_eq_div_pow]

/-- An RM value below 10 names the mode it is the code of (R73). -/
theorem decodeRounding_code (rm : RoundingMode) : decodeRounding rm.code = some rm := by cases rm <;> rfl

theorem roundingCode_lt (rm : RoundingMode) : rm.code < 10 := by cases rm <;> decide

/-- A CHK value names the overflow mode it is the code of (R74). -/
theorem decodeOverflow_code (om : OverflowMode) : decodeOverflow om.code = om := by cases om <;> rfl

theorem overflowCode_lt (om : OverflowMode) : om.code < 2 := by cases om <;> decide

end Sys2Proof.Laws
end

