-- ==== Sys2Proof/Laws/ShiftRound.lean ====
section
/-! SUPPORT. The bounded exponents of the shifts and of ROUND answer what the rules' own powers answer (R180 to R182). -/

namespace Sys2Proof.Laws

open Sys2Proof.Machine

/-- A nonzero multiple of 2^64 does not fit, and its low 64 bits are 0. -/
theorem fit_multiple {v : Int} (h : v ≠ 0) (hd : (2 : Int) ^ 64 ∣ v) : fits64 v = false ∧ wrap64 v = 0 := by
  obtain ⟨c, rfl⟩ := hd
  constructor
  · rw [Bool.eq_false_iff, Ne, fits64_iff, int64Min, int64Max]
    omega
  · simp only [wrap64]
    omega

/-- Two multiples of 2^64 that are zero together are range-checked alike. -/
theorem fit_multiples {v w : Int} (hv : (2 : Int) ^ 64 ∣ v) (hw : (2 : Int) ^ 64 ∣ w) (h0 : v = 0 ↔ w = 0)
    (om : OverflowMode) : fit v om = fit w om := by
  by_cases h : v = 0
  · rw [h, h0.mp h]
  · obtain ⟨f1, w1⟩ := fit_multiple h hv
    obtain ⟨f2, w2⟩ := fit_multiple (fun hc => h (h0.mpr hc)) hw
    exact fit_congr (f1.trans f2.symm) (fun hf => absurd hf (by simp [f1])) (w1.trans w2.symm) om

/-- A left shift by any distance (R180). -/
theorem shiftUp_eq (a : Int) (n : Nat) (p : EffectivePolicy) : shiftUp a n p = fit (a * pow2 n) p.om := by
  unfold shiftUp
  rcases Nat.le_total n 64 with h | h
  · rw [Nat.min_eq_left h]
  · rw [Nat.min_eq_right h]
    refine fit_multiples (Dvd.intro_left _ rfl) ((pow_dvd_pow 2 h).mul_left a) ?_ p.om
    simp [(pow2_pos _).ne']

/-- A right shift of an operand by any distance (R181). -/
theorem shiftDown_eq {a : Int} (ha : |a| ≤ 2 ^ 63) (n : Nat) (p : EffectivePolicy) :
    shiftDown a n p = roundFit a (pow2 n) p.rm p.om := by
  unfold shiftDown
  rcases Nat.le_total n 65 with h | h
  · rw [Nat.min_eq_left h]
  · rw [Nat.min_eq_right h]
    by_cases h0 : a = 0
    · simp [roundFit, h0]
    · have hn : (2 : Int) ^ 65 ≤ pow2 n := pow_le_pow_right₀ (by norm_num) h
      have h65 : pow2 65 = 2 ^ 65 := rfl
      have l1 : 2 * |a| < |pow2 65| := by rw [abs_of_pos (pow2_pos _)]; omega
      have l2 : 2 * |a| < |pow2 n| := by rw [abs_of_pos (pow2_pos _)]; omega
      simp only [roundFit, roundDiv_of_ltHalf h0 l1, roundDiv_of_ltHalf h0 l2,
        Int.sign_eq_one_of_pos (pow2_pos _)]

/-- ROUND of an operand to any multiple (R182). -/
theorem roundToMultiple_eq {a : Int} (ha : |a| ≤ 2 ^ 63) (k : Nat) (p : EffectivePolicy) :
    roundToMultiple a (min k 64) p = roundToMultiple a k p := by
  rcases Nat.le_total k 64 with h | h
  · rw [Nat.min_eq_left h]
  · rw [Nat.min_eq_right h]
    by_cases h0 : a = 0
    · simp [roundToMultiple, h0]
    · have hk : (10 : Int) ^ 64 ≤ pow10 k := pow_le_pow_right₀ (by norm_num) h
      have h64 : pow10 64 = 10 ^ 64 := rfl
      have l1 : 2 * |a| < |pow10 64| := by rw [abs_of_pos (pow10_pos _)]; omega
      have l2 : 2 * |a| < |pow10 k| := by rw [abs_of_pos (pow10_pos _)]; omega
      have two_dvd : ∀ j, 64 ≤ j → (2 : Int) ^ 64 ∣ pow10 j := fun j hj =>
        (pow_dvd_pow 2 hj).trans (pow_dvd_pow_of_dvd (by norm_num) j)
      simp only [roundToMultiple, roundDiv_of_ltHalf h0 l1, roundDiv_of_ltHalf h0 l2,
        Int.sign_eq_one_of_pos (pow10_pos _)]
      cases applyRounding 0 (roundSel p.rm (a.sign * 1) false RemainderClass.ltHalf) with
      | error e => rfl
      | ok v =>
        refine fit_multiples ((two_dvd 64 (le_refl _)).mul_left v) ((two_dvd k h).mul_left v) ?_ p.om
        simp [(pow10_pos _).ne']

end Sys2Proof.Laws
end

