-- ==== Sys2Proof/Tests/Slice0.lean ====
section
/-! SUPPORT. Tests: the well-formedness check, a word of every operation written out from spec/30_encoding.md, at most two
vectors of spec/95_test_vectors.md an operation, single edges of its handshake trace, and for each statement with hypotheses a
named witness that meets them. Expected values are the spec's own. -/

namespace Sys2Proof.Tests

open Sys2Proof.Machine Sys2Proof.Safety

/-- The reset state with operand words on the ports. -/
def withOperands (a b : Int) : State :=
  { State.reset with ins := { quietPorts with cmdA := BitVec.ofInt 64 a, cmdB := BitVec.ofInt 64 b } }

/-- The response of the command that one step accepts. -/
def responseTo (w : Nat) (a b : Int) : Option Response :=
  match step ((withOperands a b).withFetchWord 32 w) with
  | .next t => t.inFlight.head?.map (·.response)
  | .fault _ => none
  | .refused _ => none

/-- A single result. -/
def ok1 (v : Int) : Option Response := some (single v)

/-- An error. -/
def err (e : Err) : Option Response := some (failed e)

/-! ## Well-formedness -/

theorem test_wellFormed_accepts_scale_18 : (Instr.add ⟨18, .noPolicy⟩).wellFormed = true := by decide

theorem test_wellFormed_refuses_scale_19 : (Instr.add ⟨19, .noPolicy⟩).wellFormed = false := by decide

/-! ## Decoding: one word of every operation (R70 to R78), and every check of R80 -/

theorem test_decode_add : decode 0x00010081 = .ok (.add ⟨2, .noPolicy⟩) := by decide
theorem test_decode_sub : decode 0x00008082 = .ok (.sub ⟨2, .given .up .checked⟩) := by decide
theorem test_decode_mul : decode 0x00003483 = .ok (.mul ⟨18, .given .halfEven .unchecked⟩) := by decide
theorem test_decode_mull : decode 0x00008144 = .ok (.mull ⟨5, .given .up .checked⟩) := by decide
theorem test_decode_div : decode 0x0000C885 = .ok (.div ⟨2, .given .unnecessary .checked⟩) := by decide
theorem test_decode_divl : decode 0x000080C6 = .ok (.divl ⟨3, .given .up .checked⟩) := by decide
theorem test_decode_sqr : decode 0x00008807 = .ok (.sqr ⟨0, .given .down .checked⟩) := by decide
theorem test_decode_sqrt : decode 0x0000C088 = .ok (.sqrt ⟨2, .given .halfFloor .checked⟩) := by decide
theorem test_decode_pow : decode 0x0000A049 = .ok (.pow ⟨1, .given .halfUp .checked⟩) := by decide
theorem test_decode_shl : decode 0x0001008A = .ok (.shl ⟨2, .noPolicy⟩) := by decide
theorem test_decode_shr : decode 0x0000A80B = .ok (.shr ⟨0, .given .halfDown .checked⟩) := by decide
theorem test_decode_round : decode 0x0000180C = .ok (.round ⟨0, .given .floor .unchecked⟩) := by decide
theorem test_decode_avg : decode 0x0000980D = .ok (.avg ⟨0, .given .floor .checked⟩) := by decide
theorem test_decode_inv : decode 0x0000048E = .ok (.inv ⟨18, .given .up .unchecked⟩) := by decide
theorem test_decode_cmp : decode 0x0001000F = .ok (.cmp ⟨0, .noPolicy⟩) := by decide
theorem test_decode_sgn : decode 0x000100D0 = .ok (.sgn ⟨3, .noPolicy⟩) := by decide
theorem test_decode_divi : decode 0x0000C891 = .ok (.divi ⟨2, .given .unnecessary .checked⟩) := by decide
theorem test_decode_rem : decode 0x00010092 = .ok (.rem ⟨2, .noPolicy⟩) := by decide
theorem test_decode_divrem : decode 0x000080D3 = .ok (.divrem ⟨3, .given .up .checked⟩) := by decide
theorem test_decode_fromlong : decode 0x00008494 = .ok (.fromlong ⟨18, .given .up .checked⟩) := by decide
theorem test_decode_fromunsc : decode 0x0000B095 = .ok (.fromunsc ⟨2, .given .halfEven .checked⟩) := by decide
theorem test_decode_fromdbl : decode 0x00008C96 = .ok (.fromdbl ⟨18, .given .down .checked⟩) := by decide
theorem test_decode_tolong : decode 0x00009097 = .ok (.tolong ⟨2, .given .ceiling .checked⟩) := by decide
theorem test_decode_todbl : decode 0x0000B498 = .ok (.todbl ⟨18, .given .halfEven .checked⟩) := by decide
theorem test_decode_half_ceiling : decode 0x0000B88B = .ok (.shr ⟨2, .given .halfCeiling .checked⟩) := by decide

theorem test_decode_reserved_bit : decode 0x80000081 = .error .reservedBits := by decide
theorem test_decode_opcode_0 : decode 0x00000000 = .error .reservedOpcode := by decide
theorem test_decode_opcode_19 : decode 0x00000019 = .error .reservedOpcode := by decide
theorem test_decode_default_with_chk : decode 0x00018001 = .error .policyWithDefault := by decide
theorem test_decode_rounding_10 : decode 0x00005001 = .error .reservedRounding := by decide
theorem test_decode_scale_19 : decode 0x000004C1 = .error .scaleOutOfRange := by decide
theorem test_decode_rounding_before_scale : decode 0x000057C5 = .error .reservedRounding := by decide
theorem test_decodeTableWord_add : decodeTableWord 32 1 = some (.add ⟨0, .given .up .unchecked⟩) := by decide

/-! ## Operations: vectors of spec/95_test_vectors.md, section 2 -/

theorem test_add_wraps : responseTo 0x00000001 9223372036854775807 1 = ok1 (-9223372036854775808) := by decide +kernel
theorem test_add_overflows : responseTo 0x00008001 9223372036854775807 1 = err .overflow := by decide
theorem test_sub_overflows : responseTo 0x00008002 0 (-9223372036854775808) = err .overflow := by decide
theorem test_sub_fits : responseTo 0x00008002 (-1) (-9223372036854775808) = ok1 9223372036854775807 := by decide
theorem test_mul_floor : responseTo 0x00009883 (-5) 5 = ok1 (-1) := by decide
theorem test_mul_wraps : responseTo 0x00000C83 9223372036854775807 9223372036854775807 = ok1 (-7163128638313142233) := by decide +kernel
theorem test_mull_wraps : responseTo 0x00000144 1099511627776 1073741824 = ok1 0 := by decide +kernel
theorem test_mull_overflows : responseTo 0x00008144 1099511627776 1073741824 = err .overflow := by decide
theorem test_div_half_up : responseTo 0x0000A085 100 3 = ok1 3333 := by decide
theorem test_div_by_zero_first : responseTo 0x0000C885 100 0 = err .divByZero := by decide
theorem test_divl_half_even : responseTo 0x0000B086 (-5) 2 = ok1 (-2) := by decide
theorem test_divl_overflows : responseTo 0x00008006 (-9223372036854775808) (-1) = err .overflow := by decide
theorem test_sqr_half_even : responseTo 0x0000B047 15 0 = ok1 22 := by decide
theorem test_sqr_overflows : responseTo 0x00008807 3037000500 0 = err .overflow := by decide
theorem test_sqrt_largest : responseTo 0x00008488 9223372036854775807 0 = ok1 3037000499976049693 := by decide
theorem test_sqrt_negative : responseTo 0x00002088 (-1) 0 = err .invalidOperand := by decide
theorem test_pow_stepwise : responseTo 0x0000A049 3 (-3) = ok1 360 := by decide
theorem test_pow_least_exponent : responseTo 0x00008809 (-1) (-9223372036854775808) = ok1 1 := by decide
theorem test_shl_past_64 : responseTo 0x0000800A 3 64 = err .overflow := by decide
theorem test_shl_zero_by_1000 : responseTo 0x0000800A 0 1000 = ok1 0 := by decide
theorem test_shr_exact_half : responseTo 0x0000A00B (-9223372036854775808) 64 = ok1 (-1) := by decide
theorem test_shr_default_floor : responseTo 0x0001008B (-100) 1 = ok1 (-50) := by decide
theorem test_round_wraps : responseTo 0x0000180C (-1) (-30) = ok1 (-5076944270305263616) := by decide
theorem test_round_least_precision : responseTo 0x0000880C (-1) (-9223372036854775808) = ok1 0 := by decide
theorem test_avg_half : responseTo 0x0000A00D (-9223372036854775808) 9223372036854775807 = ok1 (-1) := by decide
theorem test_avg_inexact : responseTo 0x0000C80D 1 2 = err .inexact := by decide
theorem test_inv_wraps : responseTo 0x0000048E 1 0 = ok1 (-5527149226598858752) := by decide +kernel
theorem test_inv_by_zero : responseTo 0x0000CC8E 0 0 = err .divByZero := by decide
theorem test_cmp_less : responseTo 0x0001000F (-9223372036854775808) 9223372036854775807 = ok1 (-1) := by decide
theorem test_cmp_greater : responseTo 0x0001000F 9223372036854775807 (-9223372036854775808) = ok1 1 := by decide
theorem test_sgn_negative : responseTo 0x00010010 (-9223372036854775808) 0 = ok1 (-1) := by decide
theorem test_sgn_positive : responseTo 0x000100D0 7 0 = ok1 1 := by decide
theorem test_divi_wraps : responseTo 0x00000091 100000000000000000 1 = ok1 (-8446744073709551616) := by decide +kernel
theorem test_divi_truncates : responseTo 0x00008091 (-700) 200 = ok1 (-300) := by decide
theorem test_rem_sign : responseTo 0x00010092 700 (-200) = ok1 100 := by decide
theorem test_rem_least : responseTo 0x00010012 (-9223372036854775808) (-1) = ok1 0 := by decide
theorem test_divrem_both : responseTo 0x00008093 (-700) 200 = some ⟨.ok, BitVec.ofInt 64 (-300), BitVec.ofInt 64 (-100)⟩ := by decide
theorem test_divrem_no_partial : responseTo 0x00008013 (-9223372036854775808) (-1) = err .overflow := by decide
theorem test_fromlong_wraps : responseTo 0x00000094 92233720368547759 0 = ok1 (-9223372036854775716) := by decide +kernel
theorem test_fromlong_overflows : responseTo 0x00008494 (-10) 0 = err .overflow := by decide
theorem test_fromunsc_half_even : responseTo 0x0000B095 12355 3 = ok1 1236 := by decide
theorem test_fromunsc_scale_19 : responseTo 0x00008095 12345 19 = err .invalidScale := by decide
theorem test_fromdbl_exact_value : responseTo 0x0000A496 4591870180066957722 0 = ok1 100000000000000006 := by decide
theorem test_fromdbl_subnormal : responseTo 0x00008496 1 0 = ok1 1 := by decide +kernel
theorem test_tolong_half_even : responseTo 0x0000B097 (-150) 0 = ok1 (-2) := by decide
theorem test_tolong_up : responseTo 0x00008497 9223372036854775807 0 = ok1 10 := by decide
theorem test_todbl_carry : responseTo 0x0000B018 9223372036854775807 0 = ok1 0x43E0000000000000 := by decide
theorem test_todbl_tenth : responseTo 0x00009858 (-1) 0 = ok1 0xBFB999999999999A := by decide

/-! ## Edges of the handshake trace (spec/95_test_vectors.md section 4) -/

/-- C1 of the trace, `ADD.DEF s2 150, 250`, in flight. -/
def c1 : InFlight := { command := ⟨0x00010081, 150, 250⟩, response := single 400 }

/-- C2 of the trace, `DIV.HALF_UP.C s2 100, 0`, in flight. -/
def c2 : InFlight := { command := ⟨0x0000A085, 100, 0⟩, response := failed .divByZero }

/-- The state in which C1 and C2 are in flight and C1's response is presented and not taken, as in the trace's cycles 3 and 4. -/
def presenting : State :=
  { State.reset with cmdReady := false, rspValid := true, rspR0 := 400, inFlight := [c1, c2] }

/-- The same with the response taken, as in cycle 5. -/
def taking : State := { presenting with ins := { quietPorts with rspReady := true } }

/-- The same with a reset, as the trace's last sentence has it at cycle 4. -/
def resetting : State := { presenting with ins := { quietPorts with rst := true } }

theorem test_trace_response_held :
    (stateAfter 1 presenting).inFlight = [c1, c2] ∧ (stateAfter 1 presenting).rspR0 = 400 := by decide

theorem test_trace_take : (stateAfter 1 taking).inFlight = [c2] ∧ takenNow taking = [(0, 400, 0)] := by decide

theorem test_trace_reset : (stateAfter 1 resetting).inFlight = [] ∧ (stateAfter 1 resetting).rspValid = false := by decide

theorem test_trace_accept : (stateAfter 1 ((withOperands 100 0).withFetchWord 32 0xA085)).inFlight = [c2] := by decide

/-! ## Host-side text (spec/49_text_format.md) and assembler text (R82 to R84) -/

theorem test_render_small : render (-5) 2 = ['-', '0', '.', '0', '5'] := by decide
theorem test_render_scale_0 : render 42 0 = ['4', '2'] := by decide
theorem test_parse_half_even : parse ['1', '.', '0', '0', '5'] 2 .halfEven .checked = .ok 100 := by decide
theorem test_parse_floor : parse ['-', '1', '.', '0', '0', '5'] 2 .floor .checked = .ok (-101) := by decide
theorem test_parse_exponent : parse ['1', 'e', '5'] 2 .up .checked = .error .invalidOperand := by decide

theorem test_assemble_div :
    assemble ['D', 'I', 'V', '.', 'H', 'A', 'L', 'F', '_', 'U', 'P', '.', 'C', ' ', 's', '2', ' ', '1', '0', '0', ',', ' ', '3']
      = some ⟨0x0000A085, 100, 3⟩ := by decide

theorem test_responseText : responseText false (single 3333) = ['-', '>', ' ', 'O', 'K', ' ', '3', '3', '3', '3'] := by decide

/-! ## Witnesses: encoding -/

theorem witness_DecodeOfEncode : (Instr.todbl ⟨18, .given .unnecessary .checked⟩).wellFormed = true := by decide

theorem witness_EncodeOfDecode : decode 0x0000CC98 = .ok (.todbl ⟨18, .given .unnecessary .checked⟩) := by decide

/-- A state that accepts the command word `w`. -/
def accepting (w : Nat) : State := State.reset.withFetchWord 32 w

/-- The five ways of DecodeChecksInOrder's first two clauses, at a boundary of each, and its last clause. -/
theorem witness_DecodeChecksInOrder :
    accepts (accepting 0x00020001) = true ∧ accepts (accepting 0x00000019) = true ∧
    accepts (accepting 0x00010801) = true ∧ accepts (accepting 0x00005001) = true ∧
    accepts (accepting 0x000004C1) = true ∧ accepts (accepting 0x00000481) = true := by decide

theorem witness_DecodeChecksInOrder_clauses :
    (accepting 0x00020001).ins.cmdWord.toNat / 2 ^ 17 = 1 ∧
    (accepting 0x00000019).ins.cmdWord.toNat % 2 ^ 6 = 0x19 ∧
    (accepting 0x00010801).ins.cmdWord.toNat / 2 ^ 11 % 2 ^ 4 = 1 ∧
    (accepting 0x00005001).ins.cmdWord.toNat / 2 ^ 11 % 2 ^ 4 = 10 ∧
    (accepting 0x000004C1).ins.cmdWord.toNat / 2 ^ 6 % 2 ^ 5 = 19 ∧
    (accepting 0x00000481).ins.cmdWord.toNat / 2 ^ 6 % 2 ^ 5 = 18 := by decide

theorem witness_StepRunsDecodedInstruction :
    accepts (accepting 0x00010081) = true ∧
    decode (accepting 0x00010081).ins.cmdWord = .ok (.add ⟨2, .noPolicy⟩) ∧
    exec (.add ⟨2, .noPolicy⟩) (accepting 0x00010081) =
      .next { accepting 0x00010081 with inFlight := [⟨⟨0x00010081, 0, 0⟩, single 0⟩] } :=
  ⟨by decide, by decide, by rw [Laws.exec_eq]; rfl⟩

/-! ## Witnesses: the machine -/

/-- A state with one command in flight, its wait not over: two cycles to go, or the most a draw allows. -/
def waiting : State := { State.reset with inFlight := [c1], headWait := min 2 Config.latencyMaxPred, script := [quietPorts, quietPorts] }

/-- A state with one command in flight whose response is presented. -/
def answered (p : PortIn) : State := { State.reset with ins := p, rspValid := true, rspR0 := 400, inFlight := [c1] }

/-- A state with DEPTH commands in flight. -/
def full : State :=
  { State.reset with cmdReady := false, rspValid := true, rspR0 := 400, inFlight := List.replicate Config.depth c1 }

theorem c1_answers : c1.response = answer c1.command := by decide

theorem inv_reset : Inv State.reset :=
  ⟨fun e he => by simp [State.reset] at he, ⟨Nat.zero_le _, fun _ _ => Nat.succ_pos _⟩, by simp [State.reset],
    fun h => by simp [State.reset] at h, Nat.succ_pos _⟩

theorem inv_waiting (hw : 0 < Config.latencyMaxPred) : Inv { waiting with cmdReady := false } := by
  refine ⟨?_, ⟨?_, ?_⟩, ?_, ?_, ?_⟩
  · intro e he
    obtain rfl : e = c1 := by simpa [waiting] using he
    exact c1_answers
  · simp [waiting, Config.depth]
  · simp
  · simp [waiting, State.reset]
    omega
  · simp [waiting, State.reset]
  · simp [waiting, Config.latencyMax]

theorem inv_answered (p : PortIn) : Inv { answered p with cmdReady := false } := by
  refine ⟨?_, ⟨?_, ?_⟩, ?_, ?_, ?_⟩
  · intro e he
    obtain rfl : e = c1 := by simpa [answered] using he
    exact c1_answers
  · simp [answered, Config.depth]
  · simp
  · simp [answered, State.reset]
  · intro _; rfl
  · simp [answered, State.reset, Config.latencyMax]

theorem inv_full : Inv full := by
  refine ⟨?_, ⟨?_, ?_⟩, ?_, ?_, ?_⟩
  · intro e he
    obtain rfl : e = c1 := List.eq_of_mem_replicate he
    exact c1_answers
  · simp [full]
  · simp [full]
  · simp [full, State.reset, Config.depth]
  · intro _; simp [full, Config.depth, List.replicate_succ]; decide
  · simp [full, State.reset, Config.latencyMax]

theorem witness_StepKeepsInvariant : Inv full ∧ step full = .next (finishEdge full full) :=
  ⟨inv_full, Laws.step_idle rfl rfl⟩

theorem witness_ResetEdgeDiscardsAll : resetting.ins.rst = true ∧ resetting.inFlight = [c1, c2] := by decide

/-- A response taken and nothing accepted. -/
theorem witness_AcceptanceAndTaking :
    let s := { answered { quietPorts with rspReady := true } with cmdReady := false }
    Inv s ∧ s.ins.rst = false ∧ step s = .next (finishEdge s s) ∧ s.rspValid = true ∧ s.ins.rspReady = true :=
  ⟨inv_answered _, rfl, Laws.step_idle rfl rfl, rfl, rfl⟩

/-- A command accepted and no response taken. -/
theorem witness_AcceptanceAndTaking_accept :
    Inv (accepting 0x00010081) ∧ (accepting 0x00010081).ins.rst = false ∧ accepts (accepting 0x00010081) = true :=
  ⟨⟨fun e he => by simp [accepting, State.reset] at he, ⟨Nat.zero_le _, fun _ _ => Nat.succ_pos _⟩,
    by simp [accepting, State.reset], fun h => by simp [accepting, State.reset] at h, Nat.succ_pos _⟩, rfl, rfl⟩

theorem witness_ResponsesInCommandOrder :
    let s := { answered { quietPorts with rspReady := true } with cmdReady := false }
    Inv s ∧ noResetIn 1 s = true :=
  ⟨inv_answered _, rfl⟩

theorem witness_ProgramEndState :
    Inv State.reset ∧ noResetIn 1 State.reset = true ∧ State.reset.inFlight = [] ∧ (stateAfter 1 State.reset).inFlight = [] :=
  ⟨inv_reset, rfl, rfl, rfl⟩

theorem witness_PresentedResponseHeld :
    let s := { answered quietPorts with cmdReady := false }
    Inv s ∧ s.ins.rst = false ∧ s.rspValid = true ∧ s.ins.rspReady = false ∧ step s = .next (finishEdge s s) :=
  ⟨inv_answered _, rfl, rfl, rfl, Laws.step_idle rfl rfl⟩

theorem witness_LatencyBounded :
    let s := { answered quietPorts with cmdReady := false }
    Inv s ∧ s.inFlight ≠ [] ∧ noResetIn s.headWait s = true :=
  ⟨inv_answered _, by simp [answered], rfl⟩

/-- The same with a wait that is not over, for a LATENCY_MAX above 1. -/
theorem witness_LatencyBounded_waiting (hw : 0 < Config.latencyMaxPred) :
    Inv { waiting with cmdReady := false } ∧ noResetIn 2 { waiting with cmdReady := false } = true :=
  ⟨inv_waiting hw, rfl⟩

/-- A state that waits one cycle before it offers `cmd_ready`. -/
def unready : State := { State.reset with cmdReady := false, readyWait := 1, script := [quietPorts] }

theorem witness_ReadyOfferedAgain :
    0 < unready.readyWait ∧
      ∀ k, k ≤ unready.readyWait →
        (stateAfter k unready).ins.rst = false ∧ (stateAfter k unready).inFlight.length < Config.depth := by
  refine ⟨by decide, fun k hk => ?_⟩
  have hk' : k = 0 ∨ k = 1 := by
    have : k ≤ 1 := hk
    omega
  rcases hk' with rfl | rfl <;> exact ⟨rfl, Nat.succ_pos _⟩

theorem witness_FullUnitAcceptsNothing :
    Inv full ∧ full.ins.rst = false ∧ full.inFlight.length = Config.depth ∧ takenNow full = [] ∧
      step full = .next (finishEdge full full) :=
  ⟨inv_full, rfl, by simp [full], rfl, Laws.step_idle rfl rfl⟩

theorem witness_InstructionFrame :
    exec (.sgn ⟨0, .noPolicy⟩) (withOperands (-7) 0) =
      .next (complete (resultOf (.sgn ⟨0, .noPolicy⟩) (withOperands (-7) 0).ins.cmdA 0) (withOperands (-7) 0)) :=
  Laws.exec_eq _ _

theorem witness_ResponseOfCommandAlone :
    presented (withOperands 3 4) = presented { withOperands 3 4 with inFlight := [c1], cycle := 9 } := by decide

/-! ## Witnesses: statuses and datapath -/

theorem witness_ResultWordConventions :
    (answer ⟨0x00000000, 1, 2⟩).status ≠ .ok ∧ (answer ⟨0x00008093, BitVec.ofInt 64 (-700), 200⟩).r1 ≠ 0 := by decide

theorem witness_ErrorsOfEachOperation :
    resultOf (.sqrt ⟨2, .noPolicy⟩) (BitVec.ofInt 64 (-1)) 0 = .error .invalidOperand ∧
    resultOf (.add ⟨0, .given .up .checked⟩) 9223372036854775807 1 = .error .overflow ∧
    resultOf (.avg ⟨0, .given .unnecessary .unchecked⟩) 1 2 = .error .inexact := by decide

theorem witness_PolicyIndependence :
    ignoresRounding (.divrem ⟨0, .noPolicy⟩) = true ∧ ignoresOverflow (.todbl ⟨0, .noPolicy⟩) = true ∧
    (0 : Int) ≤ (0 : Word).toInt := by decide

theorem witness_RoundingLaw : (-3 : Int) ≠ 0 := by decide

theorem witness_RoundingMirror : (10 : Int) ≠ 0 := by decide

theorem witness_ScaleMetricsBounds : ((-1 : Int) < 0 ∨ 18 < (-1 : Int)) ∧ ((19 : Int) < 0 ∨ 18 < (19 : Int)) ∧ 18 ≤ 18 := by
  decide

/-! ## Witnesses: operations. Each clause of a statement has one, at a vector of spec/95_test_vectors.md -/

/-- The rounding hypothesis of AnswersRounded, and its other clause's. -/
theorem witness_MulAnswers :
    IsRounding .floor ((withOperands (-5) 5).ins.cmdA.toInt * (withOperands (-5) 5).ins.cmdB.toInt) (10 ^ 2) (-1) ∧
    ¬ (10 ^ 2 : Int) ∣ (withOperands (-5) 5).ins.cmdA.toInt * (withOperands (-5) 5).ins.cmdB.toInt :=
  ⟨by change IsFloorOf _ _ _; decide, by decide⟩

theorem witness_DivAnswers :
    (withOperands 100 0).ins.cmdB = 0 ∧ (withOperands 100 3).ins.cmdB ≠ 0 ∧
    IsRounding .halfUp ((withOperands 100 3).ins.cmdA.toInt * 10 ^ 2) (withOperands 100 3).ins.cmdB.toInt 3333 ∧
    ¬ (withOperands 100 3).ins.cmdB.toInt ∣ (withOperands 100 3).ins.cmdA.toInt * 10 ^ 2 :=
  ⟨by decide, by decide, by change IsNearestTo _ _ _ ∧ _; decide, by decide⟩

theorem witness_DivlAnswers :
    (withOperands 5 0).ins.cmdB = 0 ∧ (withOperands (-5) 2).ins.cmdB ≠ 0 ∧
    IsRounding .halfEven (withOperands (-5) 2).ins.cmdA.toInt (withOperands (-5) 2).ins.cmdB.toInt (-2) ∧
    ¬ (withOperands (-5) 2).ins.cmdB.toInt ∣ (withOperands (-5) 2).ins.cmdA.toInt ∧
    (withOperands (-9223372036854775808) (-1)).ins.cmdA.toInt = -(2 ^ 63) ∧
    (withOperands (-9223372036854775808) (-1)).ins.cmdB.toInt = -1 :=
  ⟨by decide, by decide, by change IsNearestTo _ _ _ ∧ _; decide, by decide, by decide, by decide⟩

theorem witness_SqrAnswers :
    IsRounding .halfEven ((withOperands 15 0).ins.cmdA.toInt * (withOperands 15 0).ins.cmdA.toInt) (10 ^ 1) 22 ∧
    ¬ (10 ^ 1 : Int) ∣ (withOperands 15 0).ins.cmdA.toInt * (withOperands 15 0).ins.cmdA.toInt :=
  ⟨by change IsNearestTo _ _ _ ∧ _; decide, by decide⟩

theorem witness_SqrtAnswers :
    (⟨2, .noPolicy⟩ : Fields).wellFormed = true ∧ (withOperands (-1) 0).ins.cmdA.toInt < 0 ∧
    0 ≤ (withOperands 200 0).ins.cmdA.toInt ∧
    IsRoundedRoot .up ((withOperands 200 0).ins.cmdA.toInt * 10 ^ 2) 142 :=
  ⟨by decide, by decide, by decide, by decide, by change _ ∧ _; decide⟩

/-- No integer is the square root of 200 * 10^2. -/
theorem witness_SqrtAnswers_inexact (v : Int) : v * v ≠ (withOperands 200 0).ins.cmdA.toInt * 10 ^ 2 := by
  have h : (withOperands 200 0).ins.cmdA.toInt * 10 ^ 2 = 20000 := by decide
  rw [h]
  intro hv
  have h1 : v < 142 := by nlinarith
  have h2 : -142 < v := by nlinarith
  interval_cases v <;> simp at hv

/-- 1.1^3 at scale 1 (R172's example): the loop ends with 13; and a step that raises INEXACT. -/
theorem witness_PowAnswers_positive :
    (⟨1, .given .halfUp .checked⟩ : Fields).wellFormed = true ∧ 0 < (withOperands 11 3).ins.cmdB.toInt ∧
    PowLoopEnds (mulOfCommand ⟨1, .given .halfUp .checked⟩) (withOperands 11 3).ins.cmdB.toInt.toNat
      (withOperands 11 3).ins.cmdA.toInt (10 ^ 1) (.ok 13) ∧
    PowLoopEnds (mulOfCommand ⟨1, .given .unnecessary .checked⟩) (withOperands 11 3).ins.cmdB.toInt.toNat
      (withOperands 11 3).ins.cmdA.toInt (10 ^ 1) (.error .inexact) :=
  ⟨by decide, by decide,
    .odd _ _ _ 11 12 _ (by decide) (by decide) (by decide) (by decide)
      (.lastOdd _ _ _ _ (by decide) (by decide) (by decide)),
    .squareFailsOdd _ _ _ 11 _ (by decide) (by decide) (by decide) (by decide)⟩

theorem witness_PowAnswers_other :
    (withOperands 0 0).ins.cmdB.toInt = 0 ∧ (withOperands 200 (-2)).ins.cmdB.toInt < 0 ∧
    resultOf (.inv ⟨2, .given .halfUp .checked⟩) (withOperands 0 (-1)).ins.cmdA 0 = .error .divByZero ∧
    resultOf (.inv ⟨2, .given .halfUp .checked⟩) (withOperands 200 (-2)).ins.cmdA 0 = .ok (50, 0) ∧
    PowLoopEnds (mulOfCommand ⟨2, .given .halfUp .checked⟩) (-(withOperands 200 (-2)).ins.cmdB.toInt).toNat (50 : Word).toInt
      (10 ^ 2) (.ok 25) :=
  ⟨by decide, by decide, by decide, by decide,
    .even _ _ _ 25 _ (by decide) (by decide) (by decide) (.lastOdd _ _ _ _ (by decide) (by decide) (by decide))⟩

theorem witness_PowAtScaleZero : 0 ≤ (withOperands 2 63).ins.cmdB.toInt := by decide

theorem witness_ShlAnswers :
    IsRounding .floor ((withOperands 3 (-1)).ins.cmdA.toInt * 2 ^ (withOperands 3 (-1)).ins.cmdB.toInt.toNat)
      (2 ^ (-(withOperands 3 (-1)).ins.cmdB.toInt).toNat) 1 ∧
    IsRounding .floor ((withOperands 3 64).ins.cmdA.toInt * 2 ^ (withOperands 3 64).ins.cmdB.toInt.toNat)
      (2 ^ (-(withOperands 3 64).ins.cmdB.toInt).toNat) (3 * 2 ^ 64) ∧
    ¬ (2 : Int) ^ (-(withOperands 3 (-1)).ins.cmdB.toInt).toNat ∣
      (withOperands 3 (-1)).ins.cmdA.toInt * 2 ^ (withOperands 3 (-1)).ins.cmdB.toInt.toNat :=
  ⟨by change IsFloorOf _ _ _; decide, by change IsFloorOf _ _ _; decide +kernel, by decide⟩

theorem witness_ShrAnswers :
    IsRounding .halfEven ((withOperands (-3) 1).ins.cmdA.toInt * 2 ^ (-(withOperands (-3) 1).ins.cmdB.toInt).toNat)
      (2 ^ (withOperands (-3) 1).ins.cmdB.toInt.toNat) (-2) ∧
    ¬ (2 : Int) ^ (withOperands (-3) 1).ins.cmdB.toInt.toNat ∣
      (withOperands (-3) 1).ins.cmdA.toInt * 2 ^ (-(withOperands (-3) 1).ins.cmdB.toInt).toNat :=
  ⟨by change IsNearestTo _ _ _ ∧ _; decide, by decide⟩

theorem witness_ShrFloorIsArithmeticShift :
    (shiftPolicy ⟨2, .noPolicy⟩).rm = .floor ∧ 0 ≤ (withOperands (-100) 63).ins.cmdB.toInt ∧
      (withOperands (-100) 63).ins.cmdB.toInt ≤ 63 := by decide

theorem witness_RoundAnswers :
    ((3 : Nat) : Int) ≤ (withOperands 12345 3).ins.cmdB.toInt ∧ (withOperands 12345 2).ins.cmdB.toInt < (3 : Nat) ∧
    IsRounding .halfEven (withOperands 12345 2).ins.cmdA.toInt
      (10 ^ (((3 : Nat) : Int) - (withOperands 12345 2).ins.cmdB.toInt).toNat) 1234 ∧
    ¬ (10 : Int) ^ (((3 : Nat) : Int) - (withOperands 12345 2).ins.cmdB.toInt).toNat ∣
      (withOperands 12345 2).ins.cmdA.toInt :=
  ⟨by decide, by decide, by change IsNearestTo _ _ _ ∧ _; decide, by decide⟩

theorem witness_RoundIdempotent :
    resultOf (.round ⟨3, .given .halfUp .checked⟩) 12345 1 = .ok (12300, 0) := by decide

theorem witness_AvgAnswers :
    IsRounding .halfEven ((withOperands 150 251).ins.cmdA.toInt + (withOperands 150 251).ins.cmdB.toInt) 2 200 ∧
    ¬ (2 : Int) ∣ (withOperands 150 251).ins.cmdA.toInt + (withOperands 150 251).ins.cmdB.toInt :=
  ⟨by change IsNearestTo _ _ _ ∧ _; decide, by decide⟩

theorem witness_InvAnswers :
    (withOperands 0 0).ins.cmdA = 0 ∧ (withOperands 800 0).ins.cmdA ≠ 0 ∧
    IsRounding .down (10 ^ (2 * 2)) (withOperands 800 0).ins.cmdA.toInt 12 ∧
    ¬ (withOperands 800 0).ins.cmdA.toInt ∣ (10 : Int) ^ (2 * 2) :=
  ⟨by decide, by decide, by change IsFloorOf _ _ _; decide, by decide⟩

theorem witness_CmpAnswers :
    (withOperands (-9223372036854775808) 9223372036854775807).ins.cmdA.slt
      (withOperands (-9223372036854775808) 9223372036854775807).ins.cmdB = true ∧
    (withOperands 5 5).ins.cmdA = (withOperands 5 5).ins.cmdB ∧
    (withOperands 5 4).ins.cmdB.slt (withOperands 5 4).ins.cmdA = true := by decide

theorem witness_SgnAnswers :
    (withOperands (-9223372036854775808) 0).ins.cmdA.msb = true ∧ (withOperands 0 0).ins.cmdA = 0 ∧
    (withOperands 1 0).ins.cmdA.msb = false ∧ (withOperands 1 0).ins.cmdA ≠ 0 := by decide

theorem witness_IntegralDivision :
    (withOperands 5 0).ins.cmdB = 0 ∧
    IsTruncatedDivision (withOperands (-700) 200).ins.cmdA.toInt (withOperands (-700) 200).ins.cmdB.toInt (-3) (-100) := by
  decide

theorem witness_DivisionIdentity :
    resultOf (.divrem ⟨2, .given .up .checked⟩) 700 (BitVec.ofInt 64 (-200)) =
      .ok (BitVec.ofInt 64 (-300), BitVec.ofInt 64 100) ∧
    InRange ((700 : Word).toInt.tdiv (BitVec.ofInt 64 (-200)).toInt * 10 ^ 2) := by decide

theorem witness_FromunscAnswers :
    ((withOperands 1 (-1)).ins.cmdB.toInt < 0 ∨ 18 < (withOperands 1 (-1)).ins.cmdB.toInt) ∧
    ((withOperands 1 19).ins.cmdB.toInt < 0 ∨ 18 < (withOperands 1 19).ins.cmdB.toInt) ∧
    0 ≤ (withOperands 12345 3).ins.cmdB.toInt ∧ (withOperands 12345 3).ins.cmdB.toInt ≤ 18 ∧
    IsRounding .halfUp
      ((withOperands 12345 3).ins.cmdA.toInt * 10 ^ (((2 : Nat) : Int) - (withOperands 12345 3).ins.cmdB.toInt).toNat)
      (10 ^ ((withOperands 12345 3).ins.cmdB.toInt - ((2 : Nat) : Int)).toNat) 1235 ∧
    ¬ (10 : Int) ^ ((withOperands 12345 3).ins.cmdB.toInt - ((2 : Nat) : Int)).toNat ∣
      (withOperands 12345 3).ins.cmdA.toInt * 10 ^ (((2 : Nat) : Int) - (withOperands 12345 3).ins.cmdB.toInt).toNat :=
  ⟨by decide, by decide, by decide, by decide, by change IsNearestTo _ _ _ ∧ _; decide, by decide⟩

/-- An infinity; and 2.5, whose significand is 5 * 2^50 and exponent -51, rounded at scale 0. -/
theorem witness_FromdblAnswers :
    exponentField (withOperands 0x7FF0000000000000 0).ins.cmdA = 2047 ∧
    exponentField (withOperands 0x4004000000000000 0).ins.cmdA = 1024 ∧
    2 ^ 52 + fractionField (withOperands 0x4004000000000000 0).ins.cmdA = 5 * 2 ^ 50 ∧
    IsRounding .halfEven (5 * 2 ^ 50) (2 ^ 51) 2 ∧ ¬ (2 ^ 51 : Int) ∣ 5 * 2 ^ 50 :=
  ⟨by decide, by decide, by decide, by change IsNearestTo _ _ _ ∧ _; decide +kernel, by decide +kernel⟩

theorem witness_TolongAnswers :
    IsRounding .halfUp (withOperands (-150) 0).ins.cmdA.toInt (10 ^ 2) (-2) ∧
    ¬ (10 ^ 2 : Int) ∣ (withOperands (-150) 0).ins.cmdA.toInt :=
  ⟨by change IsNearestTo _ _ _ ∧ _; decide, by decide⟩

theorem witness_TodblAnswers :
    (⟨2, .given .halfEven .checked⟩ : Fields).wellFormed = true ∧ (withOperands 0 0).ins.cmdA = 0 ∧
    (withOperands 150 0).ins.cmdA ≠ 0 ∧ (generalPolicy ⟨2, .given .halfEven .checked⟩).rm ≠ .unnecessary := by decide

/-- 1.5 is a binary64 value. -/
theorem witness_TodblAnswers_exact :
    magnitudeOf 0x3FF8000000000000 = |((withOperands 150 0).ins.cmdA.toInt : ℚ)| / 10 ^ 2 := by
  have h : (withOperands 150 0).ins.cmdA.toInt = 150 := by decide
  rw [h]
  norm_num [magnitudeOf, zpow_neg]

/-- 0.1 is none. -/
theorem witness_TodblAnswers_inexact (m : Nat) :
    magnitudeOf m ≠ |((withOperands 1 0).ins.cmdA.toInt : ℚ)| / 10 ^ 1 := by
  have h : (withOperands 1 0).ins.cmdA.toInt = 1 := by decide
  rw [h]
  have key : ∀ (n : Nat) (z : ℤ), (n : ℚ) * (2 : ℚ) ^ z ≠ 1 / 10 := by
    intro n z hz
    have hz' : (10 * n : ℚ) * (2 : ℚ) ^ z = 1 := by linarith
    rcases z with j | j
    · rw [Int.ofNat_eq_natCast, zpow_natCast] at hz'
      have : 10 * n * 2 ^ j = 1 := by exact_mod_cast hz'
      have := Nat.eq_one_of_mul_eq_one_right this
      omega
    · have h2 : (10 * n : ℚ) = (2 : ℚ) ^ (j + 1) := by
        rw [zpow_negSucc] at hz'
        field_simp at hz'
        linarith
      have h3 : 10 * n = 2 ^ (j + 1) := by exact_mod_cast h2
      have h5 : 5 ∣ 2 ^ (j + 1) := ⟨2 * n, by omega⟩
      have := Nat.Prime.dvd_of_dvd_pow (by norm_num) h5
      omega
  have e : |((1 : Int) : ℚ)| / 10 ^ 1 = 1 / 10 := by norm_num
  rw [e]
  unfold magnitudeOf
  split <;> exact key _ _

theorem witness_ExactDoubleRoundTrip :
    resultOf (.todbl ⟨2, .given .unnecessary .checked⟩) 150 0 = .ok (0x3FF8000000000000, 0) := by decide

theorem witness_ParseOfRender : InRange (-9223372036854775808) ∧ InRange 9223372036854775807 := by decide

theorem witness_ParseByFromunsc :
    scanDecimal ['-', '1', '.', '0', '0', '5'] = some ⟨true, 1005, 3⟩ ∧ InRange (⟨true, 1005, 3⟩ : DecimalText).signed := by
  decide

theorem witness_PseudoInstructions :
    (⟨18, .given .up .checked⟩ : Fields).wellFormed = true ∧ (BitVec.ofInt 64 (-9223372036854775808) : Word).toInt = -(2 ^ 63) := by
  decide

end Sys2Proof.Tests
end

/-! An edge without reset as one equation, and the count-down of the oldest command's wait (R273 to R276). -/

namespace Sys2Proof.Proofs

open Sys2Proof.Machine Sys2Proof.Safety Sys2Proof.Laws

variable {s : State}

/-- A command in flight with its own response (R42, R56). -/
def withAnswer (c : Command) : InFlight := ⟨c, answer c⟩

/-- The commands in flight after an edge without reset: an accepted command joins behind, a taken response's command leaves
in front. -/
def inFlightAfter (s : State) : List InFlight := afterTake s (s.inFlight ++ (acceptedNow s).map withAnswer)

theorem step_of_not_reset (hr : s.ins.rst = false) :
    step s = .next (nextCycle s (inFlightAfter s) (afterWait s (inFlightAfter s))) := by
  cases ha : accepts s with
  | false => simp [step_idle hr ha, finishEdge_eq, inFlightAfter, acceptedNow, ha]
  | true => simp [step_accept ha, finishEdge_eq, inFlightAfter, acceptedNow, ha, withAnswer]

theorem stateAfter_one_of_not_reset (hr : s.ins.rst = false) :
    stateAfter 1 s = nextCycle s (inFlightAfter s) (afterWait s (inFlightAfter s)) :=
  stateAfter_one (step_of_not_reset hr)

@[simp] theorem noResetIn_succ (k : Nat) (s : State) :
    noResetIn (k + 1) s = true ↔ s.ins.rst = false ∧ noResetIn k (stateAfter 1 s) = true := by
  simp [noResetIn]

/-- `rsp_valid` is 1 exactly when a command is in flight and the oldest one's wait is over: the part of `PortsAgree` that the
handshake turns on (R273, R274). -/
abbrev PresentsWhenDue (s : State) : Prop := s.rspValid = true ↔ s.inFlight ≠ [] ∧ s.headWait = 0

theorem presentsWhenDue_nextCycle (s : State) (q : List InFlight) (w : Nat) : PresentsWhenDue (nextCycle s q w) := by
  simp [PresentsWhenDue]

theorem takes_eq_false_of_waiting (hp : PresentsWhenDue s) (hw : s.headWait ≠ 0) : takes s = false := by
  have hv : s.rspValid = false := by simpa [PresentsWhenDue, hw] using hp
  simp [takes, hv]

theorem inFlightAfter_ne_nil (ht : takes s = false) (hq : s.inFlight ≠ []) : inFlightAfter s ≠ [] := by
  simp [inFlightAfter, ht, hq]

theorem afterWait_of_waiting (ht : takes s = false) (hq : s.inFlight ≠ []) {q : List InFlight} (hne : q ≠ []) :
    afterWait s q = s.headWait - 1 := by
  simp [afterWait, ht, hq, hne]

/-- While no edge resets, the oldest command stays in flight and its wait counts down to 0, where its response is presented. -/
theorem rspValid_after_headWait :
    ∀ (n : Nat) (s : State), PresentsWhenDue s → s.inFlight ≠ [] → s.headWait = n → noResetIn n s = true →
      (stateAfter n s).rspValid = true := by
  intro n
  induction n with
  | zero =>
    intro s hp hq hw _
    exact hp.mpr ⟨hq, hw⟩
  | succ n ih =>
    intro s hp hq hw hn
    obtain ⟨hr, hrest⟩ := (noResetIn_succ n s).mp hn
    have ht : takes s = false := takes_eq_false_of_waiting hp (by omega)
    have hne : inFlightAfter s ≠ [] := inFlightAfter_ne_nil ht hq
    have hwait : afterWait s (inFlightAfter s) = n := by rw [afterWait_of_waiting ht hq hne]; omega
    rw [stateAfter_succ]
    rw [stateAfter_one_of_not_reset hr] at hrest ⊢
    exact ih _ (presentsWhenDue_nextCycle ..) hne hwait hrest

/-- Settles O14, by induction on what is left of the wait: no edge before its end can take a response, so each takes one cycle
off it and leaves the oldest command in flight. -/
theorem latencyBounded : Obligations.LatencyBounded := by
  intro s hinv hq hn
  obtain ⟨hp, -, hlt⟩ := hinv.portsAgree
  exact ⟨hlt, rspValid_after_headWait s.headWait s hp hq rfl hn⟩

end Sys2Proof.Proofs

/-! The invariant of the machine, kept by every edge, and what one edge and a run of edges do to the commands in flight
(R42, R270 to R276). -/

namespace Sys2Proof.Proofs

open Sys2Proof.Machine Sys2Proof.Safety Sys2Proof.Laws

variable {s t : State}

/-! ## The state a step answers -/

theorem eq_nextCycle_of_step (hr : s.ins.rst = false) (h : step s = .next t) :
    t = nextCycle s (inFlightAfter s) (afterWait s (inFlightAfter s)) :=
  Host.Outcome.next.inj (h.symm.trans (step_of_not_reset hr))

theorem eq_resetEdge_of_step (hr : s.ins.rst = true) (h : step s = .next t) : t = resetEdge s :=
  Host.Outcome.next.inj (h.symm.trans (step_reset hr))

/-- Every step answers a next state, the one `stateAfter` names. -/
theorem step_stateAfter_one (s : State) : step s = .next (stateAfter 1 s) := by
  rcases step_cases s with ⟨-, h⟩ | ⟨-, -, h⟩ | ⟨-, -, h⟩ <;> rw [stateAfter_one h, h]

/-! ## The invariant -/

/-- The cycle after any edge meets the invariant when the commands left in flight carry their own responses, are at most DEPTH,
and the wait is below LATENCY_MAX: `nextCycle` sets the ports as the invariant asks. -/
theorem inv_nextCycle (s : State) {q : List InFlight} {w : Nat} (hown : ∀ e ∈ q, e.response = answer e.command)
    (hlen : q.length ≤ Config.depth) (hw : w < Config.latencyMax) : Inv (nextCycle s q w) where
  answersOwn := hown
  depthKept := by
    refine ⟨hlen, fun hr hc => ?_⟩
    rw [nextCycle_ins] at hr
    rw [nextCycle_cmdReady, hr] at hc
    simp only [nextCmdReady, Bool.false_eq_true, if_false, Bool.and_eq_true, decide_eq_true_eq] at hc
    exact hc.1
  portsAgree := by
    have hp := presentsWhenDue_nextCycle s q w
    refine ⟨hp, fun hv => ?_, hw⟩
    obtain ⟨hq, rfl : w = 0⟩ := hp.mp hv
    obtain ⟨e, q, rfl⟩ := List.exists_cons_of_ne_nil hq
    rfl

theorem inFlightAfter_answersOwn (h : AnswersOwn s) : ∀ e ∈ inFlightAfter s, e.response = answer e.command := by
  have hall : ∀ e ∈ s.inFlight ++ (acceptedNow s).map withAnswer, e.response = answer e.command := by
    intro e he
    rcases List.mem_append.mp he with he | he
    · exact h e he
    · obtain ⟨c, -, rfl⟩ := List.mem_map.mp he
      rfl
  intro e he
  unfold inFlightAfter afterTake at he
  split at he
  · exact hall e (List.mem_of_mem_tail he)
  · exact hall e he

theorem afterTake_length_le (s : State) (q : List InFlight) : (afterTake s q).length ≤ q.length := by
  unfold afterTake
  split
  · simp
  · exact le_rfl

/-- A command is accepted only where DEPTH leaves room for it (R275). -/
theorem inFlightAfter_length_le (h : DepthKept s) : (inFlightAfter s).length ≤ Config.depth := by
  obtain ⟨hle, hroom⟩ := h
  refine (afterTake_length_le _ _).trans ?_
  cases ha : accepts s with
  | false => simpa [acceptedNow, ha] using hle
  | true =>
    obtain ⟨hr, -, hc⟩ := accepts_iff.mp ha
    simpa [acceptedNow, ha] using hroom hr hc

theorem afterWait_lt (h : s.headWait < Config.latencyMax) (q : List InFlight) : afterWait s q < Config.latencyMax := by
  unfold afterWait
  split
  · exact Nat.succ_pos _
  · split
    · exact latencyWait_lt s
    · omega

/-- Settles O7: an edge ends in `nextCycle`, whether it resets (nothing is left in flight) or not. -/
theorem stepKeepsInvariant : Obligations.StepKeepsInvariant := by
  intro s t hinv hstep
  cases hr : s.ins.rst with
  | true =>
    rw [eq_resetEdge_of_step hr hstep, resetEdge_eq]
    exact inv_nextCycle s (by simp) (Nat.zero_le _) (Nat.succ_pos _)
  | false =>
    obtain ⟨-, -, hwait⟩ := hinv.portsAgree
    rw [eq_nextCycle_of_step hr hstep]
    exact inv_nextCycle s (inFlightAfter_answersOwn hinv.answersOwn) (inFlightAfter_length_le hinv.depthKept)
      (afterWait_lt hwait _)

/-- Settles O8: nothing is in flight, nothing is presented, and DEPTH and LATENCY_MAX are at least 1. -/
theorem resetMeetsInvariant : Obligations.ResetMeetsInvariant where
  answersOwn := fun _ he => absurd he List.not_mem_nil
  depthKept := ⟨Nat.zero_le _, fun _ _ => Nat.succ_pos _⟩
  portsAgree := ⟨by simp [State.reset], fun hv => Bool.noConfusion hv, Nat.succ_pos _⟩

/-! ## One edge -/

/-- Settles O9: acceptance and taking both need `rst` = 0, and the reset edge leaves nothing in flight. -/
theorem resetEdgeDiscardsAll : Obligations.ResetEdgeDiscardsAll := by
  intro s hr
  refine ⟨?_, ?_, resetEdge s, step_reset hr, rfl, rfl⟩
  · simp [acceptedNow, accepts, hr]
  · simp [takenNow, takes, hr]

/-- A response that is taken is that of the oldest command in flight (R273, R274). -/
theorem takenNow_of_takes (hp : PortsAgree s) (ht : takes s = true) :
    ∃ e q, s.inFlight = e :: q ∧ takenNow s = [onPorts e.response] := by
  obtain ⟨hdue, hport, -⟩ := hp
  obtain ⟨-, -, hv⟩ := takes_iff.mp ht
  obtain ⟨e, q, hq⟩ := List.exists_cons_of_ne_nil (hdue.mp hv).1
  have he : onPorts e.response = (s.rspStatus, s.rspR0, s.rspR1) := by simpa [hq] using hport hv
  exact ⟨e, q, hq, by simp [takenNow, ht, he]⟩

/-- The oldest command that leaves is never the one accepted at the same edge, so both happen independently. -/
theorem inFlightAfter_eq (hp : PortsAgree s) :
    inFlightAfter s = afterTake s s.inFlight ++ (acceptedNow s).map withAnswer := by
  unfold inFlightAfter
  cases ht : takes s with
  | false => simp [ht]
  | true =>
    obtain ⟨e, q, hq, -⟩ := takenNow_of_takes hp ht
    simp [ht, hq]

/-- Settles O10, from the commands in flight after an edge without reset. -/
theorem acceptanceAndTaking : Obligations.AcceptanceAndTaking := by
  intro s t hinv hr hstep
  rw [eq_nextCycle_of_step hr hstep, nextCycle_inFlight, inFlightAfter_eq hinv.portsAgree, List.map_append]
  congr 1
  · simp only [afterTake, takes_iff, hr, true_and, and_comm]
    split
    · exact List.map_tail
    · rfl
  · simp only [acceptedNow, accepts_iff, hr, true_and]
    split <;> rfl

/-! ## A run of edges -/

/-- One edge moves the oldest response to those taken and adds the accepted command's behind: the sequence stays the same. -/
theorem takenNow_append_inFlightAfter (hp : PortsAgree s) :
    takenNow s ++ (inFlightAfter s).map (fun e => onPorts e.response) =
      s.inFlight.map (fun e => onPorts e.response) ++ (acceptedNow s).map (fun c => onPorts (answer c)) := by
  have hfront : takenNow s ++ (afterTake s s.inFlight).map (fun e => onPorts e.response) =
      s.inFlight.map (fun e => onPorts e.response) := by
    cases ht : takes s with
    | false => simp [takenNow, ht]
    | true =>
      obtain ⟨e, q, hq, htaken⟩ := takenNow_of_takes hp ht
      simp [htaken, ht, hq]
  rw [inFlightAfter_eq hp, List.map_append, ← List.append_assoc, hfront, List.map_map]
  rfl

/-- Settles O11, by induction on the number of edges, each of which keeps the invariant. -/
theorem responsesInCommandOrder : Obligations.ResponsesInCommandOrder := by
  intro k
  induction k with
  | zero => intro s _ _; simp [takenIn, acceptedIn, stateAfter]
  | succ k ih =>
    intro s hinv hn
    obtain ⟨hr, hrest⟩ := (noResetIn_succ k s).mp hn
    have hq : (stateAfter 1 s).inFlight = inFlightAfter s := by
      rw [stateAfter_one_of_not_reset hr, nextCycle_inFlight]
    have hrun := ih (stateAfter 1 s) (stepKeepsInvariant s _ hinv (step_stateAfter_one s)) hrest
    rw [takenIn, acceptedIn, stateAfter_succ k s, List.append_assoc, hrun, hq, ← List.append_assoc,
      takenNow_append_inFlightAfter hinv.portsAgree, List.append_assoc, List.map_append]

end Sys2Proof.Proofs

/-! What an instruction changes, and what its response depends on and holds (R30 to R37, R56, R57, R251). -/

namespace Sys2Proof.Proofs

open Sys2Proof.Machine Sys2Proof.Safety Sys2Proof.Laws

/-! ## The frame of an instruction -/

/-- Every instruction completes in every state, with the response of its row. -/
theorem completes_resultOf (i : Instr) (s : State) :
    Completes i s (responseOf (resultOf i s.ins.cmdA s.ins.cmdB)) := exec_eq i s

/-- Settles O17: `exec` is `completeWith`, which changes the commands in flight alone. -/
theorem instructionFrame : Obligations.InstructionFrame := by
  intro i s t h
  obtain rfl := exec_next h
  simp

/-- Settles O18: the result is of the two operand words, which are part of the presented command. -/
theorem responseOfCommandAlone : Obligations.ResponseOfCommandAlone := by
  intro i s s' h
  have hA : s.ins.cmdA = s'.ins.cmdA := congrArg Command.a h
  have hB : s.ins.cmdB = s'.ins.cmdB := congrArg Command.b h
  refine ⟨completes_resultOf i s, ?_⟩
  rw [hA, hB]
  exact completes_resultOf i s'

/-! ## The result words -/

@[simp] theorem responseOf_error (e : Err) : responseOf (.error e) = errorResponse e := rfl
@[simp] theorem errorResponse_r0 (e : Err) : (errorResponse e).r0 = 0 := rfl
@[simp] theorem errorResponse_r1 (e : Err) : (errorResponse e).r1 = 0 := rfl
@[simp] theorem responseOf_ok_r1 (p : Word × Word) : (responseOf (.ok p)).r1 = p.2 := rfl
@[simp] theorem responseOf_respond1_r1 (v : Int) : (responseOf (respond1 v)).r1 = 0 := rfl

/-- A single result has R1 = 0 (R33). -/
@[simp] theorem responseOf_respondWith_r1 (x : Except Err Int) : (responseOf (respondWith x)).r1 = 0 := by
  cases x <;> rfl

/-- A response that is not OK is one of an error. -/
theorem answer_of_status_ne_ok {c : Command} (h : (answer c).status ≠ .ok) : ∃ e, answer c = errorResponse e := by
  unfold answer at h ⊢
  split at h
  · exact ⟨_, rfl⟩
  · next i _ =>
    cases hr : resultOf i c.a c.b with
    | error e => exact ⟨e, rfl⟩
    | ok p => exact absurd (by rw [hr]; rfl) h

/-- Every operation but DIVREM answers a single result word (R33). -/
theorem responseOf_resultOf_r1 {i : Instr} (hi : ∀ f, i ≠ .divrem f) (A B : Word) :
    (responseOf (resultOf i A B)).r1 = 0 := by
  cases i with
  | divrem f => exact absurd rfl (hi f)
  | sqrt f => simp only [resultOf, sqrtResult]; split <;> simp
  | round f => simp only [resultOf, roundResult]; split <;> simp
  | divi f => simp only [resultOf, diviResult]; split <;> simp
  | rem f => simp only [resultOf, remResult]; split <;> simp
  | fromunsc f => simp only [resultOf, fromunscResult]; split <;> simp
  | fromdbl f => simp only [resultOf, fromdblResult]; split <;> simp
  | todbl f => simp only [resultOf, todblResult]; (repeat' split) <;> simp
  | cmp | sgn => exact responseOf_respond1_r1 _
  | _ => exact responseOf_respondWith_r1 _

/-- Settles O20: an error's words are both 0, and so is R1 of every operation but DIVREM. -/
theorem resultWordConventions : Obligations.ResultWordConventions := by
  intro c
  constructor
  · intro h
    obtain ⟨e, he⟩ := answer_of_status_ne_ok h
    simp [he]
  · intro h
    by_contra hno
    apply h
    cases hd : decode c.word with
    | error e => simp [answer, hd]
    | ok i =>
      have hi : ∀ f, i ≠ .divrem f := fun f hf => hno ⟨f, hf ▸ hd⟩
      simp only [answer, hd]
      exact responseOf_resultOf_r1 hi c.a c.b

/-! ## The default policies -/

theorem generalPolicy_noPolicy (k : Nat) :
    generalPolicy ⟨k, .noPolicy⟩ = generalPolicy ⟨k, .given .halfUp .unchecked⟩ := rfl

theorem shiftPolicy_noPolicy (k : Nat) :
    shiftPolicy ⟨k, .noPolicy⟩ = shiftPolicy ⟨k, .given .floor .unchecked⟩ := rfl

/-- Settles O22: an operation reads its policy through `shiftPolicy` (SHL, SHR), through `generalPolicy`, or not at all. -/
theorem defaultPolicies : Obligations.DefaultPolicies := by
  intro i k A B
  cases i with
  | shl => simp only [withFields, isShift, if_true, resultOf, shlResult, shiftPolicy_noPolicy]
  | shr => simp only [withFields, isShift, if_true, resultOf, shrResult, shiftPolicy_noPolicy]
  | cmp | sgn | rem => rfl
  | _ =>
    simp only [withFields, isShift, Bool.false_eq_true, if_false, resultOf, addResult, subResult, mulResult, mullResult,
      divResult, divlResult, sqrResult, sqrtResult, powResult, roundResult, avgResult, invResult, diviResult, divremResult,
      integralQuotient, fromlongResult, fromunscResult, fromdblResult, tolongResult, todblResult, generalPolicy_noPolicy]

end Sys2Proof.Proofs

/-! The step that runs a decoded instruction (R60, R80, R273). -/

namespace Sys2Proof.Proofs

open Sys2Proof.Machine Sys2Proof.Laws

variable {s : State} {i : Instr}

/-- The answer to a command whose word decodes is its instruction's result (R80). -/
theorem answer_of_decode {c : Command} (hd : decode c.word = .ok i) : answer c = responseOf (resultOf i c.a c.b) := by
  simp [answer, hd]

/-- The instruction decoded from the presented command completes it with that command's answer. -/
theorem exec_of_decode (hd : decode s.ins.cmdWord = .ok i) :
    exec i s = .next (completeWith (answer (presented s)) s) := by
  have hans : answer (presented s) = responseOf (resultOf i s.ins.cmdA s.ins.cmdB) := answer_of_decode hd
  rw [exec_eq, complete, hans]

/-- Settles O5: an accepting step finishes the edge with the answered command added, which is what `exec` answers. -/
theorem stepRunsDecodedInstruction : Obligations.StepRunsDecodedInstruction := by
  intro s t i ha hd he
  have ht : completeWith (answer (presented s)) s = t := Host.Outcome.next.inj ((exec_of_decode hd).symm.trans he)
  rw [step_accept ha, ht]

end Sys2Proof.Proofs

/-! The command word: its fields, the policies its policy fields can spell, and decoding against encoding (R70 to R84). -/

namespace Sys2Proof.Proofs

open Sys2Proof.Machine Sys2Proof.Safety Sys2Proof.Laws

variable {w : CmdWord} {i : Instr}

/-! ## The fields of a command word -/

theorem cmdField_opcode (w : CmdWord) : cmdField w 5 0 = w.toNat % 2 ^ 6 := by rw [cmdField_eq, pow_zero, Nat.div_one]

theorem cmdField_scale (w : CmdWord) : cmdField w 10 6 = w.toNat / 2 ^ 6 % 2 ^ 5 := cmdField_eq w 10 6

theorem cmdField_rounding (w : CmdWord) : cmdField w 14 11 = w.toNat / 2 ^ 11 % 2 ^ 4 := cmdField_eq w 14 11

theorem cmdField_overflow (w : CmdWord) : cmdField w 15 15 = w.toNat / 2 ^ 15 % 2 := cmdField_eq w 15 15

theorem cmdField_default (w : CmdWord) : cmdField w 16 16 = w.toNat / 2 ^ 16 % 2 := cmdField_eq w 16 16

theorem cmdField_reserved (w : CmdWord) : cmdField w 31 17 = w.toNat / 2 ^ 17 := by
  have := w.isLt
  rw [cmdField_eq]
  omega

/-- The fields make up the whole word (R70). -/
theorem toNat_eq_fields (w : CmdWord) :
    w.toNat = cmdField w 5 0 + cmdField w 10 6 * 2 ^ 6 +
      (cmdField w 14 11 * 2 ^ 11 + cmdField w 15 15 * 2 ^ 15 + cmdField w 16 16 * 2 ^ 16) + cmdField w 31 17 * 2 ^ 17 := by
  rw [cmdField_opcode, cmdField_scale, cmdField_rounding, cmdField_overflow, cmdField_default, cmdField_reserved]
  omega

theorem cmdField_lt (w : CmdWord) (hi lo : Nat) : cmdField w hi lo < 2 ^ (hi - lo + 1) := (w.extractLsb hi lo).isLt

/-! ## The opcode map (R78, R79) -/

theorem opcodeRoundTrip (i : Instr) : OpcodeRoundTrip.Statement i := by
  cases i with
  | add f => exact OpcodeRoundTrip.add f
  | sub f => exact OpcodeRoundTrip.sub f
  | mul f => exact OpcodeRoundTrip.mul f
  | mull f => exact OpcodeRoundTrip.mull f
  | div f => exact OpcodeRoundTrip.div f
  | divl f => exact OpcodeRoundTrip.divl f
  | sqr f => exact OpcodeRoundTrip.sqr f
  | sqrt f => exact OpcodeRoundTrip.sqrt f
  | pow f => exact OpcodeRoundTrip.pow f
  | shl f => exact OpcodeRoundTrip.shl f
  | shr f => exact OpcodeRoundTrip.shr f
  | round f => exact OpcodeRoundTrip.round f
  | avg f => exact OpcodeRoundTrip.avg f
  | inv f => exact OpcodeRoundTrip.inv f
  | cmp f => exact OpcodeRoundTrip.cmp f
  | sgn f => exact OpcodeRoundTrip.sgn f
  | divi f => exact OpcodeRoundTrip.divi f
  | rem f => exact OpcodeRoundTrip.rem f
  | divrem f => exact OpcodeRoundTrip.divrem f
  | fromlong f => exact OpcodeRoundTrip.fromlong f
  | fromunsc f => exact OpcodeRoundTrip.fromunsc f
  | fromdbl f => exact OpcodeRoundTrip.fromdbl f
  | tolong f => exact OpcodeRoundTrip.tolong f
  | todbl f => exact OpcodeRoundTrip.todbl f

/-- The opcode map selects the operation that has the opcode. -/
theorem opcode_fields_of_decodeOpcode {n : Nat} {op : Fields → Instr} (h : decodeOpcode n = some op) (f : Fields) :
    (op f).opcode = n ∧ (op f).fields = f := by
  unfold decodeOpcode at h
  split at h <;> cases h <;> exact ⟨rfl, rfl⟩

/-- An instruction is its opcode's operation with its fields. -/
theorem decodeOpcode_opcode (i : Instr) : ∃ op, decodeOpcode i.opcode = some op ∧ op i.fields = i :=
  Option.map_eq_some_iff.mp (opcodeRoundTrip i).2.2

/-- The reserved opcodes (R79). -/
theorem decodeOpcode_eq_none_iff {n : Nat} : decodeOpcode n = none ↔ n = 0 ∨ 0x19 ≤ n := by
  constructor
  · contrapose!
    rintro ⟨h0, h19⟩
    have hpos : 1 ≤ n := Nat.one_le_iff_ne_zero.mpr h0
    interval_cases n <;> simp [decodeOpcode]
  · intro h
    cases hop : decodeOpcode n with
    | none => rfl
    | some op =>
      have hopc := (opcode_fields_of_decodeOpcode hop ⟨0, .noPolicy⟩).1
      obtain ⟨h1, h24, -⟩ := opcodeRoundTrip (op ⟨0, .noPolicy⟩)
      omega

/-! ## The policy fields (R73 to R75) -/

theorem decodeRounding_eq_some_iff {n : Nat} {m : RoundingMode} : decodeRounding n = some m ↔ m.code = n := by
  constructor
  · intro h
    unfold decodeRounding at h
    split at h <;> cases h <;> rfl
  · rintro rfl
    exact decodeRounding_code m

/-- The reserved RM values (R73). -/
theorem decodeRounding_eq_none_iff {n : Nat} : decodeRounding n = none ↔ 10 ≤ n := by
  constructor
  · contrapose!
    intro h
    interval_cases n <;> simp [decodeRounding]
  · intro h
    cases hm : decodeRounding n with
    | none => rfl
    | some m =>
      have hcode := decodeRounding_eq_some_iff.mp hm
      have hlt := roundingCode_lt m
      omega

theorem decodeOverflow_eq_iff {n : Nat} {om : OverflowMode} (h : n < 2) : decodeOverflow n = om ↔ om.code = n := by
  interval_cases n <;> cases om <;> decide

theorem decodePolicy_eq_noPolicy_iff {rm chk dflt : Nat} :
    decodePolicy rm chk dflt = .ok .noPolicy ↔ dflt = 1 ∧ rm = 0 ∧ chk = 0 := by
  unfold decodePolicy
  split
  · split <;> simp <;> omega
  · split <;> simp <;> omega

theorem decodePolicy_eq_given_iff {rm chk dflt : Nat} {m : RoundingMode} {om : OverflowMode} (hc : chk < 2)
    (hd : dflt < 2) :
    decodePolicy rm chk dflt = .ok (.given m om) ↔ dflt = 0 ∧ m.code = rm ∧ om.code = chk := by
  unfold decodePolicy
  split
  · split <;> simp <;> omega
  · rw [← decodeRounding_eq_some_iff, ← decodeOverflow_eq_iff hc]
    have hd0 : dflt = 0 := by omega
    split <;> simp [*]

/-- Checks 3 and 4 of R80 fail. -/
def PolicyReserved (rm chk dflt : Nat) : Prop := dflt = 1 ∧ (rm ≠ 0 ∨ chk ≠ 0) ∨ dflt = 0 ∧ 10 ≤ rm

theorem decodePolicy_of_reserved {rm chk dflt : Nat} (h : PolicyReserved rm chk dflt) :
    ∃ e, decodePolicy rm chk dflt = .error e ∧ e.err = .illegalCommand := by
  rcases h with ⟨hd, hrc⟩ | ⟨hd, hrm⟩
  · exact ⟨.policyWithDefault, by simp [decodePolicy, hd, hrc], rfl⟩
  · exact ⟨.reservedRounding, by simp [decodePolicy, hd, decodeRounding_eq_none_iff.mpr hrm], rfl⟩

theorem decodePolicy_of_not_reserved {rm chk dflt : Nat} (hd : dflt < 2) (h : ¬ PolicyReserved rm chk dflt) :
    ∃ p, decodePolicy rm chk dflt = .ok p := by
  unfold PolicyReserved at h
  cases hm : decodeRounding rm with
  | none =>
    have hrm := decodeRounding_eq_none_iff.mp hm
    omega
  | some m =>
    unfold decodePolicy
    rw [hm]
    split
    · exact ⟨.noPolicy, if_neg (by omega)⟩
    · exact ⟨.given m (decodeOverflow chk), rfl⟩

/-- A policy is read from exactly the field values that its bits spell. -/
theorem decodePolicy_eq_ok_iff_bits {rm chk dflt : Nat} {p : Policy} (hr : rm < 16) (hc : chk < 2) (hd : dflt < 2) :
    decodePolicy rm chk dflt = .ok p ↔ p.bits = rm * 2 ^ 11 + chk * 2 ^ 15 + dflt * 2 ^ 16 := by
  cases p with
  | noPolicy =>
    rw [decodePolicy_eq_noPolicy_iff, Policy.bits]
    omega
  | given m om =>
    have hm := roundingCode_lt m
    have hom := overflowCode_lt om
    rw [decodePolicy_eq_given_iff hc hd, Policy.bits]
    omega

/-- A policy's bits lie in the places 16:11 (R70). -/
theorem policyBits_eq (p : Policy) : ∃ k < 64, p.bits = k * 2 ^ 11 := by
  cases p with
  | noPolicy => exact ⟨32, by decide, rfl⟩
  | given m om =>
    have hm := roundingCode_lt m
    have hom := overflowCode_lt om
    exact ⟨m.code + om.code * 16, by omega, by rw [Policy.bits]; omega⟩

/-! ## Decoding and encoding -/

/-- What the decoder reads from a word, field by field, when all five checks pass (R80). -/
theorem decode_eq_ok_iff :
    decode w = .ok i ↔ cmdField w 31 17 = 0 ∧ i.opcode = cmdField w 5 0 ∧
      decodePolicy (cmdField w 14 11) (cmdField w 15 15) (cmdField w 16 16) = .ok i.fields.policy ∧
      i.fields.scale = cmdField w 10 6 ∧ i.fields.scale ≤ 18 := by
  constructor
  · intro h
    unfold decode at h
    split at h
    · cases h
    · next hr =>
      split at h
      · cases h
      · next op hop =>
        split at h
        · cases h
        · next p hp =>
          split at h
          · cases h
          · next hs =>
            cases h
            obtain ⟨ho, hf⟩ := opcode_fields_of_decodeOpcode hop ⟨cmdField w 10 6, p⟩
            rw [hf]
            exact ⟨not_not.mp hr, ho, hp, rfl, by dsimp only; omega⟩
  · rintro ⟨hr, ho, hp, hs, h18⟩
    obtain ⟨op, hop, hi⟩ := decodeOpcode_opcode i
    simp [decode, hr, ← ho, hop, hp, ← hs, hi, Nat.lt_succ_of_le h18]

theorem wellFormed_iff : i.wellFormed = true ↔ i.fields.scale ≤ 18 := decide_eq_true_iff

/-- The word of a well-formed instruction is the sum of its fields in their places: none runs over (R70). -/
theorem toNat_encode (h : i.fields.scale ≤ 18) :
    (encode i).toNat = i.opcode + i.fields.scale * 2 ^ 6 + i.fields.policy.bits := by
  obtain ⟨-, hopc, -⟩ := opcodeRoundTrip i
  obtain ⟨k, hk, hbits⟩ := policyBits_eq i.fields.policy
  rw [encode, BitVec.toNat_ofNat, Nat.mod_eq_of_lt]
  omega

/-- Decoding and encoding are inverse to each other: the words that decode to an instruction are its encoder's word, where it is
well formed, and no other. -/
theorem decode_eq_ok_iff_encode : decode w = .ok i ↔ i.wellFormed = true ∧ encode i = w := by
  rw [decode_eq_ok_iff, wellFormed_iff, BitVec.toNat_eq,
    decodePolicy_eq_ok_iff_bits (cmdField_lt w 14 11) (cmdField_lt w 15 15) (cmdField_lt w 16 16)]
  have hw := toNat_eq_fields w
  constructor
  · rintro ⟨hr, ho, hp, hs, h18⟩
    exact ⟨h18, by rw [toNat_encode h18]; omega⟩
  · rintro ⟨h18, he⟩
    rw [toNat_encode h18] at he
    obtain ⟨-, hopc, -⟩ := opcodeRoundTrip i
    obtain ⟨k, hk, hbits⟩ := policyBits_eq i.fields.policy
    have hopcode := cmdField_lt w 5 0
    have hscale := cmdField_lt w 10 6
    have hrounding := cmdField_lt w 14 11
    have hoverflow := cmdField_lt w 15 15
    have hdefault := cmdField_lt w 16 16
    omega

/-- Settles O1: the word of a well-formed instruction is one that decodes to it. -/
theorem decodeOfEncode : Obligations.DecodeOfEncode := fun _ h => decode_eq_ok_iff_encode.mpr ⟨h, rfl⟩

/-- Settles O2: a word that decodes to an instruction is that instruction's word. -/
theorem encodeOfDecode : Obligations.EncodeOfDecode := fun _ _ h => decode_eq_ok_iff_encode.mp h

/-! ## The decode checks in their order (R80) -/

/-- One of the first four checks of R80 fails. -/
def IllegalWord (w : CmdWord) : Prop :=
  cmdField w 31 17 ≠ 0 ∨ (cmdField w 5 0 = 0 ∨ 0x19 ≤ cmdField w 5 0) ∨
    PolicyReserved (cmdField w 14 11) (cmdField w 15 15) (cmdField w 16 16)

theorem decode_of_illegalWord (h : IllegalWord w) : ∃ e, decode w = .error e ∧ e.err = .illegalCommand := by
  unfold decode
  split
  · exact ⟨.reservedBits, rfl, rfl⟩
  · next hr =>
    split
    · exact ⟨.reservedOpcode, rfl, rfl⟩
    · next op hop =>
      have hopc : ¬ (cmdField w 5 0 = 0 ∨ 0x19 ≤ cmdField w 5 0) := by simp [← decodeOpcode_eq_none_iff, hop]
      obtain ⟨e, he, herr⟩ := decodePolicy_of_reserved ((h.resolve_left hr).resolve_left hopc)
      exact ⟨e, by rw [he], herr⟩

/-- When the first four checks pass, only the scale decides. -/
theorem decode_of_not_illegalWord (h : ¬ IllegalWord w) :
    ∃ i, decode w = if 19 ≤ cmdField w 10 6 then .error .scaleOutOfRange else .ok i := by
  obtain ⟨hr, hopc, hpol⟩ : cmdField w 31 17 = 0 ∧ ¬ (cmdField w 5 0 = 0 ∨ 0x19 ≤ cmdField w 5 0) ∧
      ¬ PolicyReserved (cmdField w 14 11) (cmdField w 15 15) (cmdField w 16 16) := by
    simpa only [IllegalWord, not_or, not_not] using h
  obtain ⟨op, hop⟩ := Option.ne_none_iff_exists'.mp (mt decodeOpcode_eq_none_iff.mp hopc)
  obtain ⟨p, hp⟩ := decodePolicy_of_not_reserved (cmdField_lt w 16 16) hpol
  exact ⟨op ⟨cmdField w 10 6, p⟩, by simp [decode, hr, hop, hp]⟩

/-- A word that fails a check is answered with that check's error, whatever the operands (R80). -/
theorem answer_of_decode_error {e : DecodeError} (hd : decode w = .error e) (a b : Word) :
    answer ⟨w, a, b⟩ = failed e.err := by
  simp only [answer, hd]
  rfl

/-- The fields of the instruction a word decodes to are the word's own (R70 to R75). -/
theorem decode_fields (h : decode w = .ok i) :
    i.opcode = cmdField w 5 0 ∧ i.fields.scale = cmdField w 10 6 ∧
      (i.fields.policy = .noPolicy ↔ cmdField w 16 16 = 1) ∧
      ∀ m om, i.fields.policy = .given m om → m.code = cmdField w 14 11 ∧ om.code = cmdField w 15 15 := by
  obtain ⟨-, ho, hp, hs, -⟩ := decode_eq_ok_iff.mp h
  have hc := cmdField_lt w 15 15
  have hd := cmdField_lt w 16 16
  cases hpol : i.fields.policy with
  | noPolicy =>
    rw [hpol] at hp
    obtain ⟨hdef, -, -⟩ := decodePolicy_eq_noPolicy_iff.mp hp
    exact ⟨ho, hs, by simp [hdef], nofun⟩
  | given m om =>
    rw [hpol] at hp
    obtain ⟨hdef, hm, hom⟩ := (decodePolicy_eq_given_iff hc hd).mp hp
    refine ⟨ho, hs, by simp [hdef], ?_⟩
    rintro _ _ ⟨rfl, rfl⟩
    exact ⟨hm, hom⟩

/-- Settles O4: an accepting step finishes the edge with the command's answer, which the first failed check decides. -/
theorem decodeChecksInOrder : Obligations.DecodeChecksInOrder := by
  intro s ha
  simp only [← cmdField_opcode, ← cmdField_scale, ← cmdField_rounding, ← cmdField_overflow, ← cmdField_default,
    ← cmdField_reserved]
  split
  · next h =>
    obtain ⟨e, he, herr⟩ := decode_of_illegalWord h
    have hans : answer (presented s) = failed .illegalCommand := herr ▸ answer_of_decode_error he _ _
    rw [step_accept ha, hans]
  · next h =>
    obtain ⟨i, hdec⟩ := decode_of_not_illegalWord h
    split
    · next hs =>
      rw [if_pos hs] at hdec
      have hans : answer (presented s) = failed .invalidScale := answer_of_decode_error hdec _ _
      rw [step_accept ha, hans]
    · next hs =>
      rw [if_neg hs] at hdec
      obtain ⟨ho, hsc, hdef, hgiven⟩ := decode_fields hdec
      exact ⟨i, _, ho, hsc, hdef, hgiven, exec_of_decode hdec, step_accept ha⟩

/-- Settles O3: the decoder reads seven words as written, and the check the other five fail decides their answer. -/
theorem workedEncodings : Obligations.WorkedEncodings := by
  refine ⟨by decide, by decide, by decide, by decide, by decide, by decide, by decide, ?_, ?_, ?_, ?_, ?_⟩
  · exact answer_of_decode_error (e := .reservedOpcode) (by decide)
  · exact answer_of_decode_error (e := .reservedBits) (by decide)
  · exact answer_of_decode_error (e := .policyWithDefault) (by decide)
  · exact answer_of_decode_error (e := .reservedRounding) (by decide)
  · exact answer_of_decode_error (e := .scaleOutOfRange) (by decide)

end Sys2Proof.Proofs

/-! Which operations answer alike under two policies (R81), and the pseudo-instructions (R83). -/

namespace Sys2Proof.Proofs

open Sys2Proof.Machine Sys2Proof.Safety Sys2Proof.Laws

/-! ## A rounded quotient is no larger than its numerator -/

theorem towardPlus_sign (n : Int) : towardPlus n.sign = 0 ∨ towardPlus n.sign = n.sign := by
  unfold towardPlus
  split
  · next h => exact .inr (Int.sign_eq_one_of_pos (Int.sign_pos_iff.mp h)).symm
  · exact .inl rfl

theorem towardMinus_sign (n : Int) : towardMinus n.sign = 0 ∨ towardMinus n.sign = n.sign := by
  unfold towardMinus
  split
  · next h => exact .inr (Int.sign_eq_neg_one_of_neg (Int.sign_neg_iff.mp h)).symm
  · exact .inl rfl

/-- Every mode leaves the truncated quotient or moves it by one away from zero (R113). -/
theorem roundingIncrement_sign (rm : RoundingMode) (n : Int) (qodd : Bool) (cls : RemainderClass) :
    roundingIncrement rm n.sign qodd cls = 0 ∨ roundingIncrement rm n.sign qodd cls = n.sign := by
  unfold roundingIncrement
  split
  case h_7 => split <;> simp -- HALF_EVEN at a half
  all_goals simp [towardPlus_sign, towardMinus_sign]

theorem remainderClass_eq_zero_iff {r d : Int} : remainderClass r d = .zero ↔ r = 0 := by
  unfold remainderClass
  split
  · simpa
  · split_ifs <;> simpa

/-- A rounded quotient is the truncated one or, where the division is not exact, one away from zero (R113, R114). -/
theorem roundDiv_ok {n d v : Int} {rm : RoundingMode} (hd : 0 < d) (h : roundDiv n d rm = .ok v) :
    v = (divider n d).1 ∨ (divider n d).2 ≠ 0 ∧ v = (divider n d).1 + n.sign := by
  rw [roundDiv, roundSel, Int.sign_eq_one_of_pos hd, mul_one] at h
  split at h
  · left
    simpa [applyRounding] using h.symm
  · next hr =>
    rw [remainderClass_eq_zero_iff] at hr
    rw [applyRounding] at h
    split at h
    · cases h
    · obtain rfl := Except.ok.inj h
      rcases roundingIncrement_sign rm n (decide ((divider n d).1 % 2 = 1)) (remainderClass (divider n d).2 d)
        with hi | hi
      · exact .inl (by simp [hi])
      · exact .inr ⟨hr, by simp [hi]⟩

/-- Rounding a quotient by a positive divisor never leads past the numerator: a step away from zero needs a remainder, so the
truncated quotient is then strictly smaller. -/
theorem roundDiv_between {n d v : Int} {rm : RoundingMode} (hd : 0 < d) (h : roundDiv n d rm = .ok v) :
    0 ≤ v ∧ v ≤ n ∨ n ≤ v ∧ v ≤ 0 := by
  obtain ⟨hn, hr, hsign⟩ := divider_spec n hd.ne'
  have hv := roundDiv_ok hd h
  generalize (divider n d).1 = q at *
  generalize (divider n d).2 = r at *
  rw [abs_of_pos hd, abs_lt] at hr
  rcases lt_trichotomy n 0 with hn0 | rfl | hn0
  · rw [Int.sign_eq_neg_one_of_neg hn0] at hsign hv
    have hr0 : r ≤ 0 := hsign.elim le_of_eq fun hs => (Int.sign_eq_neg_one_iff_neg.mp hs).le
    have hq : q ≤ 0 := by nlinarith
    have hqd : q * d ≤ q := by nlinarith
    omega
  · have hv0 : v = 0 := by simpa using h.symm
    omega
  · rw [Int.sign_eq_one_of_pos hn0] at hsign hv
    have hr0 : 0 ≤ r := hsign.elim (fun hz => hz.ge) fun hs => (Int.sign_eq_one_iff_pos.mp hs).le
    have hq : 0 ≤ q := by nlinarith
    have hqd : q ≤ q * d := by nlinarith
    omega

/-- Division of a word by a positive divisor never overflows. -/
theorem roundFit_sint64 (a : Word) {d : Int} (hd : 0 < d) (rm : RoundingMode) (om : OverflowMode) :
    roundFit (sint64 a) d rm om = roundDiv (sint64 a) d rm := by
  unfold roundFit
  cases h : roundDiv (sint64 a) d rm with
  | error e => rfl
  | ok v =>
    have hv := roundDiv_between hd h
    refine fit_of_fits ((fits64_iff v).mpr ?_) om
    have h1 := sint64_min_le a
    have h2 := sint64_le_max a
    unfold int64Min int64Max at *
    omega

/-! ## Operations without a rounding mode, and without an overflow mode (R81) -/

/-- Each of these operations reads of its policy the overflow mode alone, or nothing. -/
theorem resultOf_rounding_irrelevant {i : Instr} (h : ignoresRounding i = true) (k : Nat) (m m' : RoundingMode)
    (om : OverflowMode) (A B : Word) :
    resultOf (withFields ⟨k, .given m om⟩ i) A B = resultOf (withFields ⟨k, .given m' om⟩ i) A B := by
  cases i with
  | add | sub | mull | fromlong | divi | divrem | rem | cmp | sgn => rfl
  | _ => cases h

/-- Each of these operations reads of its policy the rounding mode alone, or nothing. -/
theorem resultOf_overflow_irrelevant {i : Instr} (h : ignoresOverflow i = true) (k : Nat) (m : RoundingMode)
    (om om' : OverflowMode) (A B : Word) :
    resultOf (withFields ⟨k, .given m om⟩ i) A B = resultOf (withFields ⟨k, .given m om'⟩ i) A B := by
  cases i with
  | sqrt | avg | tolong | todbl | rem | cmp | sgn => rfl
  | _ => cases h

/-- SHL by a distance that is not negative is a range-checked multiplication, with nothing to round (R180). -/
theorem shlResult_of_nonneg (f : Fields) (A : Word) {B : Word} (h : 0 ≤ sint64 B) :
    shlResult f A B = respondWith (fit (sint64 A * pow2 (sint64 B).toNat) (shiftPolicy f).om) := by
  rw [shlResult, if_pos h, shiftUp_eq]

/-- SHR by a distance that is not negative is a rounded division, with nothing to range-check (R181). -/
theorem shrResult_of_nonneg (f : Fields) (A : Word) {B : Word} (h : 0 ≤ sint64 B) :
    shrResult f A B = respondWith (roundDiv (sint64 A) (pow2 (sint64 B).toNat) (shiftPolicy f).rm) := by
  rw [shrResult, if_pos h, shiftDown_eq (abs_sint64_le A), roundFit_sint64 A (pow2_pos _)]

/-- Settles O23: the operations of a column read no more of the policy than the other column's mode, and neither does a shift
by a distance that is not negative. -/
theorem policyIndependence : Obligations.PolicyIndependence := by
  refine ⟨fun i k m m' om A B h => resultOf_rounding_irrelevant h k m m' om A B,
    fun i k m om om' A B h => resultOf_overflow_irrelevant h k m om om' A B, ?_, ?_⟩
  · intro k m m' om A B h
    rw [resultOf, resultOf, shlResult_of_nonneg _ A h, shlResult_of_nonneg _ A h]
    rfl
  · intro k m om om' A B h
    rw [resultOf, resultOf, shrResult_of_nonneg _ A h, shrResult_of_nonneg _ A h]
    rfl

/-! ## The pseudo-instructions (R83) -/

/-- A range-checked integer as a response (R39, R117). -/
theorem responseOf_fit (v : Int) (om : OverflowMode) : responseOf (respondWith (fit v om)) = fitted om v := by
  have hrange : fits64 v = true ↔ InRange v := by
    rw [fits64_iff, int64Min, int64Max]
    omega
  cases om with
  | unchecked => simp only [fit_unchecked, fitted, or_true, if_true]; rfl
  | checked =>
    unfold fitted
    split
    · next h =>
      rw [fit_of_fits (hrange.mpr (by simpa using h))]
      rfl
    · next h =>
      rw [fit_checked (Bool.eq_false_iff.mpr fun hf => h (.inl (hrange.mp hf)))]
      rfl

/-- The command of a well-formed instruction is answered with that instruction's result. -/
theorem answer_commandOf {i : Instr} (hi : i.wellFormed = true) (A B : Word) :
    answer (commandOf i A B) = responseOf (resultOf i A B) :=
  answer_of_decode (c := commandOf i A B) (decodeOfEncode i hi)

/-- ONE (R83): FROMLONG under UNCHECKED does not overflow. -/
theorem answer_pseudoOne {k : Nat} (hk : k ≤ 18) : answer (pseudoOne k) = single (10 ^ k) := by
  have h1 : sint64 1 = 1 := by decide
  rw [pseudoOne, answer_commandOf (i := .fromlong ⟨k, .noPolicy⟩) (decide_eq_true hk), resultOf, fromlongResult,
    responseOf_fit, h1, multiplyByScaleFactor, one_mul]
  exact if_pos (.inr rfl)

/-- NEG (R83): the exact negation, range-checked. -/
theorem answer_pseudoNeg {f : Fields} (hf : f.wellFormed = true) (A : Word) :
    answer (pseudoNeg f A) = fitted (generalPolicy f).om (-A.toInt) := by
  have h0 : sint64 0 = 0 := by decide
  rw [pseudoNeg, answer_commandOf (i := .sub f) hf, resultOf, subResult, responseOf_fit, h0, zero_sub, sint64]

/-- The negation of a word is in range unless the word is INT64_MIN. -/
theorem inRange_neg_toInt (A : Word) : InRange (-A.toInt) ↔ A.toInt ≠ -(2 ^ 63) := by
  have h1 := BitVec.le_toInt A
  have h2 := A.toInt_lt
  omega

/-- The low 64 bits of the exact negation are the wrapped negation. -/
theorem single_neg_toInt (A : Word) : single (-A.toInt) = ⟨.ok, -A, 0⟩ := by
  rw [single, BitVec.ofInt_neg, BitVec.ofInt_toInt]

/-- Settles O60: ONE is a FROMLONG and NEG a SUB from 0, each decoded and range-checked as such. -/
theorem pseudoInstructions : Obligations.PseudoInstructions := by
  refine ⟨fun k hk => answer_pseudoOne hk, ?_⟩
  intro f A hf
  have hfits : InRange (-A.toInt) ∨ (generalPolicy f).om = .unchecked ↔
      ¬ (A.toInt = -(2 ^ 63) ∧ (generalPolicy f).om = .checked) := by
    rw [inRange_neg_toInt, not_and_or]
    cases (generalPolicy f).om <;> simp
  rw [answer_pseudoNeg hf, fitted, single_neg_toInt]
  exact (if_congr hfits rfl rfl).trans (ite_not _ _ _)

end Sys2Proof.Proofs

/-! The datapath: the rounding law and its mirror symmetry (R111 to R116, R120), the bounds of the scale-metrics table (R100 to
R105), and the sign tests of addition and subtraction overflow (R122). -/

namespace Sys2Proof.Proofs

open Sys2Proof.Machine Sys2Proof.Safety Sys2Proof.Laws

/-! ## Mirror symmetry of RoundDiv (R120) -/

theorem divider_neg_left (n d : Int) : divider (-n) d = (-(divider n d).1, -(divider n d).2) := by
  simp only [divider, tdiv, Int.neg_tdiv, Prod.mk.injEq, true_and]
  ring

theorem divider_neg_neg (n d : Int) : divider (-n) (-d) = ((divider n d).1, -(divider n d).2) := by
  simp only [divider, tdiv, Int.neg_tdiv, Int.tdiv_neg, neg_neg, Prod.mk.injEq, true_and]
  ring

@[simp] theorem remainderClass_neg_left (r d : Int) : remainderClass (-r) d = remainderClass r d := by
  simp [remainderClass]

@[simp] theorem remainderClass_neg_right (r d : Int) : remainderClass r (-d) = remainderClass r d := by
  simp [remainderClass]

theorem towardPlus_neg (sg : Int) : towardPlus (-sg) = -towardMinus sg := by
  unfold towardPlus towardMinus
  split_ifs <;> omega

theorem towardMinus_neg (sg : Int) : towardMinus (-sg) = -towardPlus sg := by
  rw [← neg_neg (towardMinus _), ← towardPlus_neg, neg_neg]

/-- Negating the sign of the exact result negates the increment of the mirrored mode, row by row of R113. -/
theorem roundingIncrement_neg (rm : RoundingMode) (sg : Int) (qodd : Bool) (cls : RemainderClass) :
    roundingIncrement rm (-sg) qodd cls = -roundingIncrement (mirror rm) sg qodd cls := by
  cases rm with
  | up => rfl
  | down | unnecessary => exact neg_zero.symm
  | ceiling => exact towardPlus_neg sg
  | floor => exact towardMinus_neg sg
  | halfEven => cases cls <;> cases qodd <;> rfl
  | halfUp | halfDown | halfCeiling | halfFloor =>
    cases cls <;> simp [mirror, roundingIncrement, towardPlus_neg, towardMinus_neg]

theorem mirror_eq_unnecessary_iff (rm : RoundingMode) : mirror rm = .unnecessary ↔ rm = .unnecessary := by
  cases rm <;> decide

theorem roundSel_neg (rm : RoundingMode) (sg : Int) (qodd : Bool) (cls : RemainderClass) :
    roundSel rm (-sg) qodd cls =
      ⟨-(roundSel (mirror rm) sg qodd cls).inc, (roundSel (mirror rm) sg qodd cls).inexact⟩ := by
  unfold roundSel
  split
  · rfl
  · simp [roundingIncrement_neg, mirror_eq_unnecessary_iff]

theorem applyRounding_neg (q : Int) (sel : RoundSel) :
    applyRounding (-q) ⟨-sel.inc, sel.inexact⟩ = (applyRounding q sel).map (-·) := by
  unfold applyRounding
  split
  · rfl
  · simp [Except.map, add_comm]

/-- R120 as an equation, the errors included. -/
theorem roundDiv_neg_left (n d : Int) (rm : RoundingMode) :
    roundDiv (-n) d rm = (roundDiv n d (mirror rm)).map (-·) := by
  unfold roundDiv
  rw [divider_neg_left, Int.sign_neg, neg_mul, roundSel_neg, applyRounding_neg, Int.neg_emod_two, remainderClass_neg_left]

theorem map_neg_eq_ok_iff {x : Except Err Int} {v : Int} : x.map (-·) = .ok v ↔ x = .ok (-v) := by
  cases x with
  | error e => exact iff_of_false nofun nofun
  | ok w => simp [Except.map, neg_eq_iff_eq_neg]

/-- Settles O25: negating the numerator negates the answer of the mirrored mode, and keeps its error. -/
theorem roundingMirror : Obligations.RoundingMirror := by
  intro n d rm _
  rw [roundDiv_neg_left]
  refine ⟨fun _ => map_neg_eq_ok_iff, ?_⟩
  cases roundDiv n d (mirror rm) with
  | error e => rfl
  | ok w => exact iff_of_false nofun nofun

/-- Only the sign of the exact result enters, so the divisor may be taken positive. -/
theorem roundDiv_sign_abs {d : Int} (n : Int) (hd : d ≠ 0) (rm : RoundingMode) :
    roundDiv n d rm = roundDiv (n * d.sign) |d| rm := by
  rcases hd.lt_or_gt with h | h
  · simp [roundDiv, Int.sign_eq_neg_one_of_neg h, Int.sign_eq_one_of_pos, abs_of_neg h, divider_neg_neg, h]
  · rw [Int.sign_eq_one_of_pos h, abs_of_pos h, mul_one]

/-! ## Rounding `q * d + r` with `0 ≤ r < d` to an integer, by order and multiplication -/

section
variable {q r d v : Int}

theorem isFloorOf_iff (hr : 0 ≤ r) (hrd : r < d) : IsFloorOf (q * d + r) d v ↔ v = q := by
  have hd : 0 < d := by omega
  constructor
  · rintro ⟨hle, hlt⟩
    have h1 : v < q + 1 := lt_of_mul_lt_mul_right (by linarith) hd.le
    have h2 : q < v + 1 := lt_of_mul_lt_mul_right (by linarith) hd.le
    omega
  · rintro rfl
    constructor <;> linarith

/-- The least integer at least `n / d` is one above the greatest integer below it. -/
theorem isCeilingOf_iff (hr : 0 < r) (hrd : r < d) : IsCeilingOf (q * d + r) d v ↔ v = q + 1 := by
  have hd : 0 < d := by omega
  constructor
  · rintro ⟨hlt, hle⟩
    have h1 : v - 1 < q + 1 := lt_of_mul_lt_mul_right (by linarith) hd.le
    have h2 : q < v := lt_of_mul_lt_mul_right (by linarith) hd.le
    omega
  · rintro rfl
    constructor <;> linarith

theorem isCeilingOf_mul_iff (hd : 0 < d) : IsCeilingOf (q * d) d v ↔ v = q := by
  rw [IsCeilingOf, mul_lt_mul_iff_left₀ hd, mul_le_mul_iff_left₀ hd]
  omega

theorem remainderClass_of_lt (hr : r ≠ 0) (h : 2 * |r| < |d|) : remainderClass r d = .ltHalf := by
  rw [remainderClass, if_neg hr, if_pos h]

theorem remainderClass_of_eq (hr : r ≠ 0) (h : 2 * |r| = |d|) : remainderClass r d = .half := by
  rw [remainderClass, if_neg hr, if_neg h.not_lt, if_pos h]

theorem remainderClass_of_gt (hr : r ≠ 0) (h : |d| < 2 * |r|) : remainderClass r d = .gtHalf := by
  rw [remainderClass, if_neg hr, if_neg h.not_gt, if_neg h.ne']

/-- Only the two neighbours `q` and `q + 1` can be nearest. -/
theorem isNearestTo_iff (hr : 0 ≤ r) (hrd : r < d) :
    IsNearestTo (q * d + r) d v ↔ v = q ∧ 2 * r ≤ d ∨ v = q + 1 ∧ d ≤ 2 * r := by
  obtain ⟨k, rfl⟩ : ∃ k, v = q + k := ⟨v - q, by ring⟩
  have hdist : q * d + r - (q + k) * d = r - k * d := by ring
  rw [IsNearestTo, hdist]
  obtain hk | rfl | rfl | hk : k ≤ -1 ∨ k = 0 ∨ k = 1 ∨ 2 ≤ k := by omega
  · have hkd : k * d ≤ -1 * d := mul_le_mul_of_nonneg_right hk (by omega)
    rw [abs_of_nonneg (by linarith)]
    omega
  · rw [zero_mul, sub_zero, abs_of_nonneg hr]
    omega
  · rw [one_mul, abs_of_neg (by omega)]
    omega
  · have hkd : 2 * d ≤ k * d := mul_le_mul_of_nonneg_right hk (by omega)
    rw [abs_of_neg (by linarith)]
    omega

theorem isHalfFrom_iff_of_isNearestTo (hr : 0 ≤ r) (hrd : r < d) (h : IsNearestTo (q * d + r) d v) :
    IsHalfFrom (q * d + r) d v ↔ 2 * r = d := by
  rw [isNearestTo_iff hr hrd] at h
  rcases h with ⟨rfl, -⟩ | ⟨rfl, -⟩
  · rw [IsHalfFrom, add_sub_cancel_left, abs_of_nonneg hr]
  · rw [IsHalfFrom, show q * d + r - (q + 1) * d = r - d by ring, abs_of_neg (by omega)]
    omega

/-- Rounding to the nearest integer, at a half to the one of the two neighbours of which the mode's condition `P` holds. -/
theorem nearest_iff (P : Int → Prop) (inc : RemainderClass → Int) (hr : 0 < r) (hrd : r < d) (hlt : inc .ltHalf = 0)
    (hgt : inc .gtHalf = 1) (hhalf : inc .half = 0 ∧ P q ∧ ¬ P (q + 1) ∨ inc .half = 1 ∧ ¬ P q ∧ P (q + 1)) :
    IsNearestTo (q * d + r) d v ∧ (IsHalfFrom (q * d + r) d v → P v) ↔ v = q + inc (remainderClass r d) := by
  rw [and_congr_right fun h => imp_congr_left (isHalfFrom_iff_of_isNearestTo hr.le hrd h), isNearestTo_iff hr.le hrd]
  have hra : |r| = r := abs_of_pos hr
  have hda : |d| = d := abs_of_pos (hr.trans hrd)
  rcases lt_trichotomy (2 * r) d with h | h | h
  · rw [remainderClass_of_lt hr.ne' (by omega), hlt]
    omega
  · rw [remainderClass_of_eq hr.ne' (by omega)]
    rcases hhalf with ⟨hinc, h0, h1⟩ | ⟨hinc, h0, h1⟩ <;> rw [hinc] <;> constructor
    · rintro ⟨⟨rfl, -⟩ | ⟨rfl, -⟩, hv⟩
      · exact (add_zero _).symm
      · exact absurd (hv h) h1
    · intro hv
      obtain rfl : v = q := by omega
      exact ⟨.inl ⟨rfl, h.le⟩, fun _ => h0⟩
    · rintro ⟨⟨rfl, -⟩ | ⟨rfl, -⟩, hv⟩
      · exact absurd (hv h) h0
      · rfl
    · rintro rfl
      exact ⟨.inr ⟨rfl, h.ge⟩, fun _ => h1⟩
  · rw [remainderClass_of_gt hr.ne' (by omega), hgt]
    omega

/-! ## The rows of R113 for a positive divisor -/

/-- An exact quotient is rounded to itself by every mode. -/
theorem isRoundedQuotient_mul_iff (rm : RoundingMode) (hd : 0 < d) : IsRoundedQuotient rm (q * d) d v ↔ v = q := by
  have hfloor : IsFloorOf (q * d) d v ↔ v = q := by simpa using isFloorOf_iff (q := q) (v := v) le_rfl hd
  have hceiling : IsCeilingOf (q * d) d v ↔ v = q := isCeilingOf_mul_iff hd
  have hnearest (P : Prop) : IsNearestTo (q * d) d v ∧ (IsHalfFrom (q * d) d v → P) ↔ v = q := by
    have h := isNearestTo_iff (q := q) (v := v) le_rfl hd
    have h' := isHalfFrom_iff_of_isNearestTo (q := q) (v := v) le_rfl hd
    rw [add_zero] at h h'
    rw [and_congr_right fun hn => imp_congr_left (h' hn), h]
    omega
  cases rm with
  | up => rw [IsRoundedQuotient, hceiling, hfloor, ite_self]
  | down => rw [IsRoundedQuotient, hceiling, hfloor, ite_self]
  | ceiling => exact hceiling
  | floor => exact hfloor
  | halfUp | halfDown | halfEven | halfCeiling | halfFloor => exact hnearest _
  | unnecessary => rw [IsRoundedQuotient, mul_left_inj' hd.ne', eq_comm]

theorem not_dvd_mul_add (hr : 0 < r) (hrd : r < d) : ¬ d ∣ q * d + r := by
  rw [dvd_add_right (dvd_mul_left d q)]
  exact fun h => hrd.not_ge (Int.le_of_dvd hr h)

/-- A positive quotient that is not exact is rounded to the truncated one with the increment of the mode's row added. -/
theorem isRoundedQuotient_mul_add_iff {rm : RoundingMode} (hrm : rm ≠ .unnecessary) (hq : 0 ≤ q) (hr : 0 < r) (hrd : r < d) :
    IsRoundedQuotient rm (q * d + r) d v ↔
      v = q + roundingIncrement rm 1 (decide (q % 2 = 1)) (remainderClass r d) := by
  have hqd : 0 ≤ q * d := mul_nonneg hq (by omega)
  have hn : 0 ≤ q * d + r := by omega
  have hbelow : q * d < q * d + r := by omega
  have habove : q * d + r < (q + 1) * d := by linarith
  have habs_below : |q * d| < |q * d + r| := by rwa [abs_of_nonneg hqd, abs_of_nonneg hn]
  have habs_above : |q * d + r| < |(q + 1) * d| := by rwa [abs_of_nonneg hn, abs_of_nonneg (hn.trans habove.le)]
  have hceiling : IsCeilingOf (q * d + r) d v ↔ v = q + 1 := isCeilingOf_iff hr hrd
  have hfloor : IsFloorOf (q * d + r) d v ↔ v = q + 0 := by rw [add_zero, isFloorOf_iff hr.le hrd]
  cases rm with
  | up => exact (iff_of_eq (if_pos hn)).trans hceiling
  | down => exact (iff_of_eq (if_pos hn)).trans hfloor
  | ceiling => exact hceiling
  | floor => exact hfloor
  | halfUp =>
    exact nearest_iff (fun v => |q * d + r| < |v * d|) (roundingIncrement .halfUp 1 _) hr hrd rfl rfl
      (.inr ⟨rfl, habs_below.not_gt, habs_above⟩)
  | halfDown =>
    exact nearest_iff (fun v => |v * d| < |q * d + r|) (roundingIncrement .halfDown 1 _) hr hrd rfl rfl
      (.inl ⟨rfl, habs_below, habs_above.not_gt⟩)
  | halfEven =>
    refine nearest_iff (fun v => v % 2 = 0) (roundingIncrement .halfEven 1 _) hr hrd rfl rfl ?_
    rcases Int.emod_two_eq_zero_or_one q with h | h
    · exact .inl ⟨by simp [roundingIncrement, h], h, by omega⟩
    · exact .inr ⟨by simp [roundingIncrement, h], by omega, by omega⟩
  | halfCeiling =>
    exact nearest_iff (fun v => q * d + r < v * d) (roundingIncrement .halfCeiling 1 _) hr hrd rfl rfl
      (.inr ⟨rfl, hbelow.not_gt, habove⟩)
  | halfFloor =>
    exact nearest_iff (fun v => v * d < q * d + r) (roundingIncrement .halfFloor 1 _) hr hrd rfl rfl
      (.inl ⟨rfl, hbelow, habove.not_gt⟩)
  | unnecessary => exact absurd rfl hrm

/-! ## RoundDiv for a positive divisor -/

theorem divider_mul_add (hq : 0 ≤ q) (hr : 0 ≤ r) (hrd : r < d) : divider (q * d + r) d = (q, r) := by
  have hn : 0 ≤ q * d + r := add_nonneg (mul_nonneg hq (by omega)) hr
  have hdiv : (q * d + r).tdiv d = q := by
    rw [Int.tdiv_eq_ediv_of_nonneg hn]
    exact ((Int.ediv_emod_unique (by omega)).mpr ⟨by ring, hr, hrd⟩).1
  rw [divider, tdiv, hdiv, add_sub_cancel_left]

/-- An exact quotient is answered by every mode. -/
theorem roundDiv_mul (rm : RoundingMode) (hq : 0 ≤ q) (hd : 0 < d) : roundDiv (q * d) d rm = .ok q := by
  have hdiv := divider_mul_add hq le_rfl hd
  rw [add_zero] at hdiv
  rw [roundDiv, hdiv, remainderClass_eq_zero_iff.mpr rfl, roundSel_zero]
  exact congrArg _ (add_zero q)

/-- A positive quotient that is not exact is INEXACT under UNNECESSARY, else answered with the increment of the mode's row. -/
theorem roundDiv_mul_add (rm : RoundingMode) (hq : 0 ≤ q) (hr : 0 < r) (hrd : r < d) :
    roundDiv (q * d + r) d rm =
      if rm = .unnecessary then .error .inexact
      else .ok (q + roundingIncrement rm 1 (decide (q % 2 = 1)) (remainderClass r d)) := by
  have hn : 0 < q * d + r := add_pos_of_nonneg_of_pos (mul_nonneg hq (by omega)) hr
  have hcls : remainderClass r d ≠ .zero := fun h => hr.ne' (remainderClass_eq_zero_iff.mp h)
  rw [roundDiv, divider_mul_add hq hr.le hrd, Int.sign_eq_one_of_pos hn, Int.sign_eq_one_of_pos (hr.trans hrd), mul_one,
    roundSel, if_neg hcls, applyRounding]
  simp only [decide_eq_true_eq]

end

section
variable {n d v : Int}

theorem roundDiv_eq_ok_iff_of_nonneg (rm : RoundingMode) (hn : 0 ≤ n) (hd : 0 < d) :
    roundDiv n d rm = .ok v ↔ IsRoundedQuotient rm n d v := by
  have hq : 0 ≤ n / d := Int.ediv_nonneg hn hd.le
  have hrd : n % d < d := Int.emod_lt_of_pos n hd
  rw [← Int.ediv_mul_add_emod n d]
  generalize n / d = q at hq
  rcases (Int.emod_nonneg n hd.ne').eq_or_lt' with hr | hr
  · rw [hr, add_zero, roundDiv_mul rm hq hd, isRoundedQuotient_mul_iff rm hd, Except.ok.injEq, eq_comm]
  · rw [roundDiv_mul_add rm hq hr hrd]
    split
    · next hrm =>
      subst hrm
      exact iff_of_false nofun fun h => not_dvd_mul_add hr hrd ⟨v, h.trans (mul_comm v d)⟩
    · next hrm => rw [isRoundedQuotient_mul_add_iff hrm hq hr hrd, Except.ok.injEq, eq_comm]

/-! ## The rounding law for every numerator and divisor (R116) -/

theorem isFloorOf_neg_iff : IsFloorOf (-n) d v ↔ IsCeilingOf n d (-v) := by
  have h1 : (-v - 1) * d = -((v + 1) * d) := by ring
  rw [IsFloorOf, IsCeilingOf, h1, neg_mul]
  omega

theorem isCeilingOf_neg_iff : IsCeilingOf (-n) d v ↔ IsFloorOf n d (-v) := by
  rw [← neg_neg n, isFloorOf_neg_iff, neg_neg, neg_neg]

theorem abs_neg_sub_eq : |-n - v * d| = |n - -v * d| := by
  rw [← abs_neg]
  ring_nf

theorem isNearestTo_neg_iff : IsNearestTo (-n) d v ↔ IsNearestTo n d (-v) := by
  rw [IsNearestTo, IsNearestTo, abs_neg_sub_eq]

theorem isHalfFrom_neg_iff : IsHalfFrom (-n) d v ↔ IsHalfFrom n d (-v) := by
  rw [IsHalfFrom, IsHalfFrom, abs_neg_sub_eq]

/-- The mirror symmetry of the meaning of the modes; at `n = 0` every mode rounds to 0. -/
theorem isRoundedQuotient_neg_iff (rm : RoundingMode) (hn : 0 < n) :
    IsRoundedQuotient rm (-n) d v ↔ IsRoundedQuotient (mirror rm) n d (-v) := by
  have hneg : ¬ 0 ≤ -n := by omega
  have hnearest : IsNearestTo (-n) d v ↔ IsNearestTo n d (-v) := isNearestTo_neg_iff
  have hhalf : IsHalfFrom (-n) d v ↔ IsHalfFrom n d (-v) := isHalfFrom_neg_iff
  cases rm with
  | up => simp only [IsRoundedQuotient, mirror, if_neg hneg, if_pos hn.le, isFloorOf_neg_iff]
  | down => simp only [IsRoundedQuotient, mirror, if_neg hneg, if_pos hn.le, isCeilingOf_neg_iff]
  | ceiling => exact isCeilingOf_neg_iff
  | floor => exact isFloorOf_neg_iff
  | halfUp | halfDown => simp only [IsRoundedQuotient, mirror, hnearest, hhalf, neg_mul, abs_neg]
  | halfEven => simp only [IsRoundedQuotient, mirror, hnearest, hhalf, Int.neg_emod_two]
  | halfCeiling => simp only [IsRoundedQuotient, mirror, hnearest, hhalf, neg_mul, neg_lt]
  | halfFloor => simp only [IsRoundedQuotient, mirror, hnearest, hhalf, neg_mul, lt_neg]
  | unnecessary => simp only [IsRoundedQuotient, mirror, neg_mul, neg_eq_iff_eq_neg]

/-- RoundDiv answers the exact quotient rounded to an integer by the mode, and nothing else. -/
theorem roundDiv_eq_ok_iff (rm : RoundingMode) (hd : d ≠ 0) : roundDiv n d rm = .ok v ↔ IsRounding rm n d v := by
  rw [roundDiv_sign_abs n hd, IsRounding]
  have hd' : 0 < |d| := abs_pos.mpr hd
  generalize n * d.sign = n'
  generalize |d| = d' at hd'
  rcases le_or_gt 0 n' with hn | hn
  · exact roundDiv_eq_ok_iff_of_nonneg rm hn hd'
  · have hn' : 0 < -n' := by omega
    rw [← neg_neg n', roundDiv_neg_left, map_neg_eq_ok_iff, isRoundedQuotient_neg_iff rm hn']
    exact roundDiv_eq_ok_iff_of_nonneg _ hn'.le hd'

/-- Under UNNECESSARY only an exact quotient is rounded at all. -/
theorem isRounding_unnecessary_iff (hd : d ≠ 0) : IsRounding .unnecessary n d v ↔ n = v * d := by
  rw [IsRounding, IsRoundedQuotient, ← Int.sign_mul_self_eq_abs, mul_comm d.sign, ← mul_assoc]
  exact mul_left_inj' (mt Int.sign_eq_zero_iff_zero.mp hd)

/-- RoundDiv raises INEXACT exactly under UNNECESSARY for a quotient that is not exact. -/
theorem roundDiv_eq_error_iff (rm : RoundingMode) (e : Err) (hd : d ≠ 0) :
    roundDiv n d rm = .error e ↔ e = .inexact ∧ rm = .unnecessary ∧ ¬ d ∣ n := by
  constructor
  · intro h
    obtain ⟨he, rfl⟩ := roundDiv_error h
    refine ⟨he, rfl, ?_⟩
    rintro ⟨v, hv⟩
    have hok := (roundDiv_eq_ok_iff _ hd).mpr ((isRounding_unnecessary_iff hd).mpr (hv.trans (mul_comm d v)))
    cases h.symm.trans hok
  · rintro ⟨rfl, rfl, hdvd⟩
    cases h : roundDiv n d .unnecessary with
    | error e => rw [(roundDiv_error h).1]
    | ok v =>
      have hv := (isRounding_unnecessary_iff hd).mp ((roundDiv_eq_ok_iff _ hd).mp h)
      exact absurd ⟨v, hv.trans (mul_comm v d)⟩ hdvd

end

/-- Settles O24: by the signs the law is that of a numerator that is not negative and a positive divisor, where the rows of
R113 are compared with the two neighbours of the quotient. -/
theorem roundingLaw : Obligations.RoundingLaw :=
  fun _ _ rm hd => ⟨fun _ => roundDiv_eq_ok_iff rm hd, fun e => roundDiv_eq_error_iff rm e hd⟩

/-! ## The bounds of the scale-metrics table (R105) -/

/-- The upper bound: the floor of INT64_MAX over the scale factor. -/
theorem le_maxIntegerValue_iff (s : Nat) (x : Int) : x ≤ (scaleEntry s).maxIntegerValue ↔ x * pow10 s ≤ int64Max :=
  Int.le_ediv_iff_mul_le (pow10_pos s)

/-- The lower bound: truncation of the negative INT64_MIN rounds up, so the bound is minus the floor for its magnitude. -/
theorem minIntegerValue_le_iff (s : Nat) (x : Int) : (scaleEntry s).minIntegerValue ≤ x ↔ int64Min ≤ x * pow10 s := by
  have htdiv : (scaleEntry s).minIntegerValue = -(2 ^ 63 / pow10 s) := by
    rw [scaleEntry, tdiv, show int64Min = -2 ^ 63 from rfl, Int.neg_tdiv, Int.tdiv_eq_ediv_of_nonneg (by norm_num)]
  rw [htdiv, neg_le, Int.le_ediv_iff_mul_le (pow10_pos s), neg_mul, neg_le]
  rfl

theorem fits64_iff_inRange (v : Int) : fits64 v = true ↔ InRange v := by
  rw [fits64_iff, int64Min, int64Max]
  omega

/-- The scale factors are in the 64-bit range (R100). -/
theorem inRange_pow10 {s : Nat} (hs : s ≤ 18) : InRange (pow10 s) := by
  have hpos := pow10_pos s
  have hle : pow10 s ≤ 10 ^ 18 := pow_le_pow_right₀ (by norm_num) hs
  omega

/-- Settles O26: the lookup answers the entry by its definition, and each bound is the division that undoes the product. -/
theorem scaleMetricsBounds : Obligations.ScaleMetricsBounds := by
  refine ⟨fun t => scaleMetrics_of_unsupported, fun s hs => ⟨scaleEntry s, ?_, rfl, ?_, fun x => ?_⟩⟩
  · exact scaleMetrics_of_supported (Int.natCast_nonneg s) (by omega)
  · exact inRange_pow10 hs
  · rw [minIntegerValue_le_iff, le_maxIntegerValue_iff, ← fits64_iff, fits64_iff_inRange, pow10]

/-! ## The sign tests of overflow (R122) -/

/-- Under CHECKED the overflow detector answers OVERFLOW exactly for a value out of range (R117). -/
theorem respondWith_fit_checked_eq_overflow_iff (v : Int) :
    respondWith (fit v .checked) = .error .overflow ↔ ¬ InRange v := by
  rw [← fits64_iff_inRange, Bool.not_eq_true]
  cases hv : fits64 v with
  | true => simp [fit_of_fits hv, respondWith, respond1, respond2]
  | false => simp [fit_checked hv, respondWith]

theorem not_inRange_add_iff (A B : Word) :
    ¬ InRange (A.toInt + B.toInt) ↔ A.msb = B.msb ∧ (A + B).msb ≠ A.msb := by
  have h : ¬ InRange (A.toInt + B.toInt) ↔ A.saddOverflow B = true := by
    simp only [BitVec.saddOverflow, Bool.or_eq_true, decide_eq_true_eq]
    omega
  rw [h, BitVec.saddOverflow_eq]
  simp

theorem not_inRange_sub_iff (A B : Word) :
    ¬ InRange (A.toInt - B.toInt) ↔ A.msb ≠ B.msb ∧ (A - B).msb ≠ A.msb := by
  have h : ¬ InRange (A.toInt - B.toInt) ↔ A.ssubOverflow B = true := by
    simp only [BitVec.ssubOverflow, Bool.or_eq_true, decide_eq_true_eq]
    omega
  rw [h, BitVec.ssubOverflow_eq]
  cases A.msb <;> cases B.msb <;> simp

/-- Settles O27: ADD and SUB under CHECKED answer OVERFLOW exactly out of range, and out of range is what the sign tests
find. -/
theorem signTestOverflow : Obligations.SignTestOverflow := by
  intro k rm A B
  have hadd := not_inRange_add_iff A B
  have hsub := not_inRange_sub_iff A B
  exact ⟨hadd, (respondWith_fit_checked_eq_overflow_iff _).trans hadd, hsub,
    (respondWith_fit_checked_eq_overflow_iff _).trans hsub⟩

end Sys2Proof.Proofs

/-! Addition and subtraction (R140, R141), with the rules every operation's answer needs: its opcode, and the completion with a
range-checked integer. -/

namespace Sys2Proof.Proofs

open Sys2Proof.Machine Sys2Proof.Safety

/-- The OPC field of an instruction's word is its opcode, whatever its other fields: they lie above bit 5 (R70, R71). -/
theorem opcodeOf_eq_opcode (i : Instr) : opcodeOf i = i.opcode := by
  obtain ⟨-, hopc, -⟩ := opcodeRoundTrip i
  obtain ⟨k, -, hbits⟩ := policyBits_eq i.fields.policy
  rw [opcodeOf, encode, BitVec.toNat_ofNat, hbits]
  omega

/-- An operation whose result is a range-checked integer completes with that integer's response (R39, R117). -/
theorem completes_fitted {i : Instr} {s : State} {v : Int} {om : OverflowMode}
    (h : resultOf i s.ins.cmdA s.ins.cmdB = respondWith (fit v om)) : Completes i s (fitted om v) := by
  rw [← responseOf_fit, ← h]
  exact completes_resultOf i s

/-- The low 64 bits of the exact sum are the wrapped sum (R12). -/
theorem single_toInt_add_toInt (A B : Word) : single (A.toInt + B.toInt) = ⟨.ok, A + B, 0⟩ := by
  rw [single, BitVec.ofInt_add, BitVec.ofInt_toInt, BitVec.ofInt_toInt]

/-- The low 64 bits of the exact difference are the wrapped difference (R12). -/
theorem single_toInt_sub_toInt (A B : Word) : single (A.toInt - B.toInt) = ⟨.ok, A - B, 0⟩ := by
  rw [single, Int.sub_eq_add_neg, BitVec.ofInt_add, BitVec.ofInt_neg, BitVec.ofInt_toInt, BitVec.ofInt_toInt,
    ← BitVec.sub_eq_add_neg]

/-- Settles O28: ADD is the range-checked sum, and the response of an exact sum is the wrapped one. -/
theorem addAnswers : Obligations.AddAnswers := by
  intro f s
  rw [← single_toInt_add_toInt]
  exact ⟨opcodeOf_eq_opcode _, completes_fitted rfl⟩

/-- Settles O29: SUB is the range-checked difference, and the response of an exact difference is the wrapped one. -/
theorem subAnswers : Obligations.SubAnswers := by
  intro f s
  rw [← single_toInt_sub_toInt]
  exact ⟨opcodeOf_eq_opcode _, completes_fitted rfl⟩

end Sys2Proof.Proofs

/-! Multiplication (R150, R151), with the rule of every answer that is a rounded and range-checked quotient. -/

namespace Sys2Proof.Proofs

open Sys2Proof.Machine Sys2Proof.Safety Sys2Proof.Laws

/-- A rounded quotient is the value that is range-checked (R118). -/
theorem roundFit_of_isRounding {n d v : Int} {rm : RoundingMode} (hd : d ≠ 0) (h : IsRounding rm n d v)
    (om : OverflowMode) : roundFit n d rm om = fit v om := by
  rw [roundFit, (roundDiv_eq_ok_iff rm hd).mpr h]

/-- A quotient that is not exact is INEXACT under UNNECESSARY, before any range check (R118). -/
theorem roundFit_unnecessary_of_not_dvd {n d : Int} (hd : d ≠ 0) (h : ¬ d ∣ n) (om : OverflowMode) :
    roundFit n d .unnecessary om = .error .inexact := by
  rw [roundFit, (roundDiv_eq_error_iff .unnecessary .inexact hd).mpr ⟨rfl, rfl, h⟩]

/-- An operation whose result is an error completes with that error's response (R33, R251). -/
theorem completes_failed {i : Instr} {s : State} {e : Err} (h : resultOf i s.ins.cmdA s.ins.cmdB = .error e) :
    Completes i s (failed e) := by
  have hc := completes_resultOf i s
  rwa [h] at hc

/-- An operation whose result is a rounded and range-checked quotient answers as the rounding law says (R116 to R118). -/
theorem answersRounded_of_roundFit {i : Instr} {s : State} {p : EffectivePolicy} {n d : Int} (hd : d ≠ 0)
    (h : resultOf i s.ins.cmdA s.ins.cmdB = respondWith (roundFit n d p.rm p.om)) : AnswersRounded i s p n d := by
  constructor
  · intro v hv
    rw [roundFit_of_isRounding hd hv] at h
    exact completes_fitted h
  · intro hrm hdvd
    rw [hrm, roundFit_unnecessary_of_not_dvd hd hdvd] at h
    exact completes_failed h

/-- The low 64 bits of the exact product are the wrapped product (R12). -/
theorem single_toInt_mul_toInt (A B : Word) : single (A.toInt * B.toInt) = ⟨.ok, A * B, 0⟩ := by
  rw [single, BitVec.ofInt_mul, BitVec.ofInt_toInt, BitVec.ofInt_toInt]

/-- Settles O30: MUL is the product's rounded and range-checked quotient by the scale factor, which is never 0. -/
theorem mulAnswers : Obligations.MulAnswers :=
  fun f _ => ⟨opcodeOf_eq_opcode _, answersRounded_of_roundFit (pow10_pos f.scale).ne' rfl⟩

/-- Settles O31: MULL is the range-checked product, and the response of an exact product is the wrapped one. -/
theorem mullAnswers : Obligations.MullAnswers := by
  intro f s
  rw [← single_toInt_mul_toInt]
  exact ⟨opcodeOf_eq_opcode _, completes_fitted rfl⟩

end Sys2Proof.Proofs

/-! Division (R160, R161): a division with its zero test made first, and the one division of words that overflows. -/

namespace Sys2Proof.Proofs

open Sys2Proof.Machine Sys2Proof.Safety Sys2Proof.Laws

/-! ## The zero test (R160, R161, R243) -/

theorem checkedDivision_zero (n : Int) (p : EffectivePolicy) : checkedDivision n 0 p = .error .divByZero := if_pos rfl

theorem checkedDivision_of_ne_zero {d : Int} (hd : d ≠ 0) (n : Int) (p : EffectivePolicy) :
    checkedDivision n d p = roundFit n d p.rm p.om := if_neg hd

theorem toInt_eq_zero_iff (B : Word) : B.toInt = 0 ↔ B = 0 := BitVec.toInt_inj (y := 0)

/-- An operation that is a division by its second operand raises DIV_BY_ZERO for 0, under every policy. -/
theorem completes_divByZero {i : Instr} {s : State} {n : Int} {p : EffectivePolicy}
    (h : resultOf i s.ins.cmdA s.ins.cmdB = respondWith (checkedDivision n s.ins.cmdB.toInt p)) (hB : s.ins.cmdB = 0) :
    Completes i s (failed .divByZero) := by
  rw [(toInt_eq_zero_iff _).mpr hB, checkedDivision_zero] at h
  exact completes_failed h

/-- An operation that is a division by its second operand answers the rounded and range-checked quotient otherwise. -/
theorem answersRounded_of_checkedDivision {i : Instr} {s : State} {n : Int} {p : EffectivePolicy}
    (h : resultOf i s.ins.cmdA s.ins.cmdB = respondWith (checkedDivision n s.ins.cmdB.toInt p)) (hB : s.ins.cmdB ≠ 0) :
    AnswersRounded i s p n s.ins.cmdB.toInt := by
  have hd : s.ins.cmdB.toInt ≠ 0 := mt (toInt_eq_zero_iff _).mp hB
  rw [checkedDivision_of_ne_zero hd] at h
  exact answersRounded_of_roundFit hd h

/-- Settles O32: DIV is the division of `a * 10^s` by its second operand. -/
theorem divAnswers : Obligations.DivAnswers :=
  fun _ _ => ⟨opcodeOf_eq_opcode _, completes_divByZero rfl, answersRounded_of_checkedDivision rfl⟩

/-! ## Which error an operation completes with -/

/-- A command completes with one response. -/
theorem completes_iff (i : Instr) (s : State) (r : Response) :
    Completes i s r ↔ responseOf (resultOf i s.ins.cmdA s.ins.cmdB) = r := by
  constructor
  · intro h
    have hnext := exec_next h
    simpa using (congrArg State.inFlight hnext).symm
  · rintro rfl
    exact completes_resultOf i s

theorem responseOf_eq_failed_iff {x : Result} {e : Err} : responseOf x = failed e ↔ x = .error e := by
  cases x with
  | error e' => simp [errorResponse, failed]
  | ok p => exact iff_of_false nofun nofun

theorem respondWith_eq_error_iff {x : Except Err Int} {e : Err} : respondWith x = .error e ↔ x = .error e := by
  cases x with
  | error e' => simp [respondWith]
  | ok v => exact iff_of_false nofun nofun

theorem fit_eq_overflow_iff {v : Int} {om : OverflowMode} :
    fit v om = .error .overflow ↔ om = .checked ∧ ¬ InRange v := by
  rw [← fits64_iff_inRange, Bool.not_eq_true]
  constructor
  · exact fun h => (fit_error h).2
  · rintro ⟨rfl, hv⟩
    exact fit_checked hv

theorem roundFit_eq_overflow_iff {n d : Int} {rm : RoundingMode} {om : OverflowMode} :
    roundFit n d rm om = .error .overflow ↔ om = .checked ∧ ∃ v, roundDiv n d rm = .ok v ∧ ¬ InRange v := by
  unfold roundFit
  cases h : roundDiv n d rm with
  | error e =>
    obtain ⟨rfl, -⟩ := roundDiv_error h
    simp
  | ok v => simpa using fit_eq_overflow_iff

/-! ## The one overflow of a division of words (R161) -/

/-- A rounded quotient is as large as a numerator above 1 only where the divisor is 1. -/
theorem roundDiv_eq_self_iff {n d : Int} {rm : RoundingMode} (hn : 1 < n) (hd : 0 < d) :
    roundDiv n d rm = .ok n ↔ d = 1 := by
  constructor
  · intro h
    obtain ⟨heq, -, hsign⟩ := divider_spec n hd.ne'
    have hq := roundDiv_ok hd h
    rw [Int.sign_eq_one_of_pos (zero_lt_one.trans hn)] at hq hsign
    generalize (divider n d).1 = q at *
    generalize (divider n d).2 = r at *
    have hr : r = 0 ∨ 0 < r := hsign.imp_right Int.sign_eq_one_iff_pos.mp
    have hq1 : 1 ≤ q := by omega
    by_contra hd1
    have hqd : q * 2 ≤ q * d := mul_le_mul_of_nonneg_left (by omega) (by omega)
    omega
  · rintro rfl
    simpa using roundDiv_mul rm (q := n) (by omega) one_pos

/-- The quotient of a word by a nonzero integer leaves the 64-bit range only for INT64_MIN / -1: it is no larger than its
numerator, and 2^63 is the one magnitude of a word that does not fit. -/
theorem roundDiv_out_of_range_iff (A : Word) {d : Int} {rm : RoundingMode} (hd : d ≠ 0) :
    (∃ v, roundDiv A.toInt d rm = .ok v ∧ ¬ InRange v) ↔ A.toInt = -(2 ^ 63) ∧ d = -1 := by
  have hmin := BitVec.le_toInt A
  have hmax := A.toInt_lt
  rw [roundDiv_sign_abs A.toInt hd]
  constructor
  · rintro ⟨v, hv, hout⟩
    have hbetween := roundDiv_between (abs_pos.mpr hd) hv
    rcases hd.lt_or_gt with hneg | hpos
    · rw [Int.sign_eq_neg_one_of_neg hneg] at hv hbetween
      have hA : A.toInt = -(2 ^ 63) := by omega
      obtain rfl : v = A.toInt * -1 := by omega
      have habs := (roundDiv_eq_self_iff (by omega) (abs_pos.mpr hd)).mp hv
      rw [abs_of_neg hneg] at habs
      omega
    · rw [Int.sign_eq_one_of_pos hpos] at hbetween
      omega
  · rintro ⟨hA, rfl⟩
    rw [hA]
    exact ⟨2 ^ 63, (roundDiv_eq_self_iff (by norm_num) (by norm_num)).mpr (by norm_num), by norm_num⟩

theorem divlResult_eq_overflow_iff (f : Fields) (A B : Word) :
    divlResult f A B = .error .overflow ↔
      (generalPolicy f).om = .checked ∧ A.toInt = -(2 ^ 63) ∧ B.toInt = -1 := by
  rw [divlResult, respondWith_eq_error_iff, sint64, sint64]
  rcases eq_or_ne B.toInt 0 with hB | hB
  · rw [hB, checkedDivision_zero]
    exact iff_of_false nofun nofun
  · rw [checkedDivision_of_ne_zero hB, roundFit_eq_overflow_iff, roundDiv_out_of_range_iff A hB]

/-- Settles O33: DIVL is the division of `a` by its second operand, and its overflow that of a division of words. -/
theorem divlAnswers : Obligations.DivlAnswers := by
  intro f s
  refine ⟨opcodeOf_eq_opcode _, completes_divByZero rfl, answersRounded_of_checkedDivision rfl, ?_⟩
  rw [completes_iff, responseOf_eq_failed_iff]
  exact divlResult_eq_overflow_iff f s.ins.cmdA s.ins.cmdB

end Sys2Proof.Proofs

/-! Square and square root (R170, R171): which integer a root is rounded to, from the integer root and its remainder. -/

namespace Sys2Proof.Proofs

open Sys2Proof.Machine Sys2Proof.Safety Sys2Proof.Laws

/-! ## SQR (R170) -/

/-- Settles O34: SQR is the rounded and range-checked quotient that MUL is for equal operands. -/
theorem sqrAnswers : Obligations.SqrAnswers :=
  fun f _ => ⟨opcodeOf_eq_opcode _, answersRounded_of_roundFit (pow10_pos f.scale).ne' rfl, fun _ _ => rfl⟩

/-! ## The root a mode rounds to, from the integer root `r` of `n` (R171) -/

section
variable {n r v : Int} (hr : 0 ≤ r) (hle : r * r ≤ n) (hlt : n < (r + 1) * (r + 1))
include hr hle hlt

theorem floorRoot_eq (hv : 0 ≤ v) (h1 : v * v ≤ n) (h2 : n < (v + 1) * (v + 1)) : v = r := by
  have hvr : v < r + 1 := lt_of_mul_self_lt_mul_self₀ (by omega) (h1.trans_lt hlt)
  have hrv : r < v + 1 := lt_of_mul_self_lt_mul_self₀ (by omega) (hle.trans_lt h2)
  omega

/-- The least integer whose square is at least `n` is the integer root, or the next integer where `n` is no square. -/
theorem ceilingRoot_eq (hv : 0 ≤ v) (h1 : n ≤ v * v) (h2 : v = 0 ∨ (v - 1) * (v - 1) < n) :
    v = if n = r * r then r else r + 1 := by
  have hvr : v - 1 < r + 1 := by
    rcases h2 with rfl | h2
    · omega
    · exact lt_of_mul_self_lt_mul_self₀ (by omega) (h2.trans hlt)
  split
  · next hn =>
    have hrv : r ≤ v := nonneg_le_nonneg_of_sq_le_sq hv (hle.trans h1)
    rcases h2 with rfl | h2
    · omega
    · have hvr' : v - 1 < r := lt_of_mul_self_lt_mul_self₀ hr (hn ▸ h2)
      omega
  · next hn =>
    have hrv : r < v := lt_of_mul_self_lt_mul_self₀ hv ((lt_of_le_of_ne' hle hn).trans_le h1)
    omega

/-- `√n` lies above `r + 1/2` exactly where the remainder is above `r`. -/
theorem nearestRoot_eq (hv : 0 ≤ v) (h1 : 4 * n < (2 * v + 1) * (2 * v + 1))
    (h2 : v = 0 ∨ (2 * v - 1) * (2 * v - 1) < 4 * n) : v = if n - r * r ≤ r then r else r + 1 := by
  split
  · next hn =>
    have hrv : 2 * r < 2 * v + 1 := lt_of_mul_self_lt_mul_self₀ (by omega) (by linarith)
    rcases h2 with rfl | h2
    · omega
    · have hvr : 2 * v - 1 < 2 * r + 1 := lt_of_mul_self_lt_mul_self₀ (by omega) (by linarith)
      omega
  · next hn =>
    have hrv : 2 * r + 1 < 2 * v + 1 := lt_of_mul_self_lt_mul_self₀ (by omega) (by linarith)
    rcases h2 with rfl | h2
    · omega
    · have hvr : 2 * v - 1 < 2 * r + 2 := lt_of_mul_self_lt_mul_self₀ (by omega) (by linarith)
      omega

/-- A square is rounded to its root by every mode. -/
theorem eq_root_of_isRoundedRoot {rm : RoundingMode} (h : IsRoundedRoot rm n v) (hn : n = r * r) : v = r := by
  obtain ⟨hv, h⟩ := h
  have hceiling := ceilingRoot_eq hr hle hlt hv
  have hnearest := nearestRoot_eq hr hle hlt hv
  rw [if_pos hn] at hceiling
  rw [if_pos (by omega)] at hnearest
  cases rm with
  | down | floor => exact floorRoot_eq hr hle hlt hv h.1 h.2
  | up | ceiling => exact hceiling h.1 h.2
  | halfUp | halfDown | halfEven | halfCeiling | halfFloor => exact hnearest h.1 h.2
  | unnecessary => exact (mul_self_inj hv hr).mp (h.trans hn)

/-- A root that is not exact is rounded to the integer root with the increment of the mode's row added, under every mode but
UNNECESSARY. -/
theorem eq_root_add_of_isRoundedRoot {rm : RoundingMode} (h : IsRoundedRoot rm n v) (hn : n ≠ r * r) (qodd : Bool) :
    rm ≠ .unnecessary ∧ v = r + roundingIncrement rm 1 qodd (sqrtClass r (n - r * r)) := by
  obtain ⟨hv, h⟩ := h
  have hfloor := floorRoot_eq hr hle hlt hv
  have hceiling := ceilingRoot_eq hr hle hlt hv
  have hnearest := nearestRoot_eq hr hle hlt hv
  rw [if_neg hn] at hceiling
  cases rm with
  | down | floor => exact ⟨nofun, (hfloor h.1 h.2).trans (add_zero r).symm⟩
  | up | ceiling => exact ⟨nofun, hceiling h.1 h.2⟩
  | halfUp | halfDown | halfEven | halfCeiling | halfFloor =>
    refine ⟨nofun, (hnearest h.1 h.2).trans ?_⟩
    rw [sqrtClass, if_neg (sub_ne_zero.mpr hn)]
    split <;> simp [roundingIncrement]
  | unnecessary =>
    obtain rfl := hfloor h.le (by linarith)
    exact absurd h.symm hn

/-- A rounded root is at most one above the integer root. -/
theorem isRoundedRoot_le {rm : RoundingMode} (h : IsRoundedRoot rm n v) : v ≤ r + 1 := by
  by_cases hn : n = r * r
  · rw [eq_root_of_isRoundedRoot hr hle hlt h hn]
    omega
  · obtain ⟨-, hv⟩ := eq_root_add_of_isRoundedRoot hr hle hlt h hn false
    rcases roundingIncrement_sign rm 1 false (sqrtClass r (n - r * r)) with hi | hi <;> rw [Int.sign_one] at hi <;> omega

end

/-! ## SQRT (R171) -/

theorem isqrt_spec_int {n : Nat} (h : n < 2 ^ 128) :
    (isqrt n : Int) * isqrt n ≤ n ∧ (n : Int) < (isqrt n + 1) * (isqrt n + 1) := by
  obtain ⟨hle, hlt⟩ := isqrt_spec h
  exact ⟨by exact_mod_cast hle, by exact_mod_cast hlt⟩

theorem sqrtClass_eq_zero_iff (r rem : Int) : sqrtClass r rem = .zero ↔ rem = 0 := by
  unfold sqrtClass
  split_ifs <;> simpa

theorem sqrtRounded_of_square {n : Nat} (rm : RoundingMode) (hn : (n : Int) = isqrt n * isqrt n) :
    sqrtRounded n rm = .ok (isqrt n) := by
  rw [sqrtRounded, (sqrtClass_eq_zero_iff _ _).mpr (sub_eq_zero.mpr hn), roundSel_zero]
  exact congrArg _ (add_zero _)

theorem sqrtRounded_of_not_square {n : Nat} (rm : RoundingMode) (hn : (n : Int) ≠ isqrt n * isqrt n) :
    sqrtRounded n rm =
      if rm = .unnecessary then .error .inexact
      else .ok (isqrt n + roundingIncrement rm 1 (decide ((isqrt n : Int) % 2 = 1))
        (sqrtClass (isqrt n) (n - isqrt n * isqrt n))) := by
  rw [sqrtRounded, roundSel, if_neg (mt (sqrtClass_eq_zero_iff _ _).mp (sub_ne_zero.mpr hn)), applyRounding]
  simp only [decide_eq_true_eq]

/-- SQRT's rounding answers the square root rounded by the mode. -/
theorem sqrtRounded_of_isRoundedRoot {n : Nat} {rm : RoundingMode} {v : Int} (hlt : n < 2 ^ 128)
    (h : IsRoundedRoot rm n v) : sqrtRounded n rm = .ok v := by
  obtain ⟨hle, hgt⟩ := isqrt_spec_int hlt
  have hr : (0 : Int) ≤ isqrt n := Int.natCast_nonneg _
  by_cases hn : (n : Int) = isqrt n * isqrt n
  · rw [sqrtRounded_of_square rm hn, eq_root_of_isRoundedRoot hr hle hgt h hn]
  · obtain ⟨hrm, hv⟩ := eq_root_add_of_isRoundedRoot hr hle hgt h hn (decide ((isqrt n : Int) % 2 = 1))
    rw [sqrtRounded_of_not_square rm hn, if_neg hrm, hv]

/-- A root that is not exact is INEXACT under UNNECESSARY. -/
theorem sqrtRounded_unnecessary_of_not_square {n : Nat} (h : ∀ v : Int, v * v ≠ n) :
    sqrtRounded n .unnecessary = .error .inexact := by
  rw [sqrtRounded_of_not_square _ (h _).symm, if_pos rfl]

/-- The radicand of SQRT is below 2^123 (R171). -/
theorem radicand_lt {f : Fields} (hf : f.wellFormed = true) (A : Word) : A.toInt * 10 ^ f.scale < 2 ^ 123 := by
  have hs : f.scale ≤ 18 := by simpa [Fields.wellFormed] using hf
  have hpow : (10 : Int) ^ f.scale ≤ 10 ^ 18 := pow_le_pow_right₀ (by norm_num) hs
  calc A.toInt * 10 ^ f.scale ≤ 2 ^ 63 * 10 ^ 18 :=
        mul_le_mul A.toInt_lt.le hpow (by positivity) (by norm_num)
    _ < 2 ^ 123 := by norm_num

/-- The rounded root of a radicand of SQRT is in the 64-bit range (R171). -/
theorem inRange_of_isRoundedRoot {n : Nat} {rm : RoundingMode} {v : Int} (hlt : n < 2 ^ 123)
    (h : IsRoundedRoot rm n v) : InRange v := by
  obtain ⟨hle, hgt⟩ := isqrt_spec_int (hlt.trans (by norm_num))
  have hv := isRoundedRoot_le (Int.natCast_nonneg _) hle hgt h
  have hr : (isqrt n : Int) < 2 ^ 62 := lt_of_mul_self_lt_mul_self₀ (by norm_num) (by omega)
  have hv0 : 0 ≤ v := h.1
  omega

theorem resultOf_sqrt_of_nonneg (f : Fields) {A : Word} (h : 0 ≤ A.toInt) (B : Word) :
    resultOf (.sqrt f) A B = respondWith (sqrtRounded (A.toInt * 10 ^ f.scale).toNat (generalPolicy f).rm) := if_neg h.not_gt

/-- An operation that ends with a value or an error on integers completes with its response (R33). -/
theorem completes_outcomeOf {i : Instr} {s : State} {x : Except Err Int}
    (h : resultOf i s.ins.cmdA s.ins.cmdB = respondWith x) : Completes i s (outcomeOf x) := by
  have hc := completes_resultOf i s
  rw [h] at hc
  cases x <;> exact hc

/-- Settles O35: the integer root and its remainder decide the rounded root, which is far below 2^63. -/
theorem sqrtAnswers : Obligations.SqrtAnswers := by
  intro f s hf
  refine ⟨opcodeOf_eq_opcode _, fun hneg => completes_failed (if_pos hneg), fun ha => ?_⟩
  have hres := resultOf_sqrt_of_nonneg f ha s.ins.cmdB
  have hlt := radicand_lt hf s.ins.cmdA
  have hn0 : 0 ≤ s.ins.cmdA.toInt * 10 ^ f.scale := mul_nonneg ha (by positivity)
  obtain ⟨n, hn⟩ := Int.eq_ofNat_of_zero_le hn0
  rw [hn, Int.toNat_natCast] at hres
  rw [hn] at hlt ⊢
  refine ⟨fun v hv => ⟨inRange_of_isRoundedRoot (by omega) hv, ?_⟩, fun hrm hsq => ?_⟩
  · rw [sqrtRounded_of_isRoundedRoot (by omega) hv] at hres
    exact completes_outcomeOf hres
  · rw [hrm, sqrtRounded_unnecessary_of_not_square hsq] at hres
    exact completes_outcomeOf hres

end Sys2Proof.Proofs

/-! Integer power (R172): the model's loop answers what the loop as a relation ends with, and at scale 0 the exact power. -/

namespace Sys2Proof.Proofs

open Sys2Proof.Machine Sys2Proof.Safety Sys2Proof.Laws

/-! ## MULSTEP (R172) -/

theorem fits64_wrap64 (v : Int) : fits64 (wrap64 v) = true := by
  rw [wrap64_eq]
  exact fits64_sint64 _

/-- A range check answers a value that fits, whatever the mode (R117). -/
theorem fits64_of_fit {v w : Int} {om : OverflowMode} (h : fit v om = .ok w) : fits64 w = true := by
  unfold fit at h
  split at h
  · next hv => exact Except.ok.inj h ▸ hv
  · cases om with
    | checked => cases h
    | unchecked => exact Except.ok.inj h ▸ fits64_wrap64 v

theorem fits64_of_roundFit {n d v : Int} {rm : RoundingMode} {om : OverflowMode} (h : roundFit n d rm om = .ok v) :
    fits64 v = true := by
  unfold roundFit at h
  split at h
  · cases h
  · exact fits64_of_fit h

theorem fits64_of_mulStep {k : Nat} {p : EffectivePolicy} {x y v : Int} (h : mulStep k p x y = .ok v) :
    fits64 v = true := fits64_of_roundFit h

/-- MUL on words is the MULSTEP of the model: operands and result are read back from their words. -/
theorem mulOfCommand_eq (f : Fields) {x y : Int} (hx : fits64 x = true) (hy : fits64 y = true) :
    mulOfCommand f x y = mulStep f.scale (generalPolicy f) x y := by
  have hres : resultOf (.mul f) (bits64 x) (bits64 y) = respondWith (mulStep f.scale (generalPolicy f) x y) := by
    rw [resultOf, mulResult, sint64_bits64 hx, sint64_bits64 hy]
  rw [bits64, bits64] at hres
  rw [mulOfCommand, hres]
  cases h : mulStep f.scale (generalPolicy f) x y with
  | error e => rfl
  | ok v => exact congrArg _ (sint64_bits64 (fits64_of_mulStep h))

/-- A multiple of the divisor is only range-checked: every mode leaves an exact quotient as it is. -/
theorem roundFit_mul_self (q : Int) {d : Int} (hd : 0 < d) (rm : RoundingMode) (om : OverflowMode) :
    roundFit (q * d) d rm om = fit q om := by
  refine roundFit_of_isRounding hd.ne' ?_ om
  rw [IsRounding, Int.sign_eq_one_of_pos hd, mul_one, abs_of_pos hd]
  exact (isRoundedQuotient_mul_iff rm hd).mpr rfl

/-- The first MULSTEP of POW is exact (R172). -/
theorem mulStep_pow10_left (k : Nat) (p : EffectivePolicy) (y : Int) : mulStep k p (pow10 k) y = fit y p.om := by
  rw [mulStep, mul128, mul_comm]
  exact roundFit_mul_self y (pow10_pos k) p.rm p.om

/-- At scale 0 MULSTEP is exact integer multiplication, range-checked (R150). -/
theorem mulStep_scale_zero (p : EffectivePolicy) (x y : Int) : mulStep 0 p x y = fit (x * y) p.om := by
  have h := roundFit_mul_self (x * y) one_pos p.rm p.om
  rwa [mul_one] at h

/-! ## POW's loop (R172) -/

/-- One round: the multiplication of an odd exponent, the exit, the squaring, and the rounds after it. -/
theorem powLoop_succ (k : Nat) (p : EffectivePolicy) (rounds m : Nat) (base acc : Int) :
    powLoop k p (rounds + 1) m base acc =
      (if m % 2 = 1 then mulStep k p acc base else .ok acc).bind fun acc' =>
        if m / 2 = 0 then .ok acc'
        else (mulStep k p base base).bind fun base' => powLoop k p rounds (m / 2) base' acc' := by
  rw [powLoop]
  cases (if m % 2 = 1 then mulStep k p acc base else .ok acc) with
  | error e => rfl
  | ok acc' => cases mulStep k p base base <;> rfl

/-- An exponent that is not used up leaves a round, and the rounds after it have room for one bit less. -/
theorem exists_rounds_eq_succ {m rounds : Nat} (h : m < 2 ^ rounds) (hm : m ≠ 0) :
    ∃ j, rounds = j + 1 ∧ m / 2 < 2 ^ j := by
  cases rounds with
  | zero => omega
  | succ j => exact ⟨j, rfl, by omega⟩

/-- What POW's loop ends with by its rounds is what the model's loop answers, when the exponent has at most one bit more than
`rounds`. -/
theorem powLoop_of_ends {f : Fields} {m : Nat} {base acc : Int} {r : Except Err Int}
    (h : PowLoopEnds (mulOfCommand f) m base acc r) :
    ∀ rounds, m / 2 < 2 ^ rounds → fits64 base = true → fits64 acc = true →
      powLoop f.scale (generalPolicy f) (rounds + 1) m base acc = r := by
  induction h with
  | multiplyFails m base acc e hm hmul =>
    intro rounds _ hb ha
    rw [mulOfCommand_eq f ha hb] at hmul
    rw [powLoop_succ, if_pos hm, hmul]
    rfl
  | lastOdd m base acc acc' hm hmul hlast =>
    intro rounds _ hb ha
    rw [mulOfCommand_eq f ha hb] at hmul
    rw [powLoop_succ, if_pos hm, hmul]
    exact if_pos hlast
  | lastEven m base acc hm hlast =>
    intro rounds _ hb ha
    rw [powLoop_succ, if_neg (by omega)]
    exact if_pos hlast
  | squareFailsOdd m base acc acc' e hm hmul hmore hsq =>
    intro rounds _ hb ha
    rw [mulOfCommand_eq f ha hb] at hmul
    rw [mulOfCommand_eq f hb hb] at hsq
    rw [powLoop_succ, if_pos hm, hmul, hsq]
    exact if_neg hmore
  | squareFailsEven m base acc e hm hmore hsq =>
    intro rounds _ hb ha
    rw [mulOfCommand_eq f hb hb] at hsq
    rw [powLoop_succ, if_neg (by omega), hsq]
    exact if_neg hmore
  | odd m base acc acc' base' r hm hmul hmore hsq _ ih =>
    intro rounds hlt hb ha
    obtain ⟨j, rfl, hj⟩ := exists_rounds_eq_succ hlt hmore
    rw [mulOfCommand_eq f ha hb] at hmul
    rw [mulOfCommand_eq f hb hb] at hsq
    rw [powLoop_succ, if_pos hm, hmul, hsq]
    exact (if_neg hmore).trans (ih j hj (fits64_of_mulStep hsq) (fits64_of_mulStep hmul))
  | even m base acc base' r hm hmore hsq _ ih =>
    intro rounds hlt hb ha
    obtain ⟨j, rfl, hj⟩ := exists_rounds_eq_succ hlt hmore
    rw [mulOfCommand_eq f hb hb] at hsq
    rw [powLoop_succ, if_neg (by omega), hsq]
    exact (if_neg hmore).trans (ih j hj (fits64_of_mulStep hsq) ha)

/-! ## POW (R172) -/

theorem powValue_zero (k : Nat) (p : EffectivePolicy) (a : Int) : powValue k p a 0 = .ok (pow10 k) := if_pos rfl

theorem powValue_of_pos (k : Nat) (p : EffectivePolicy) (a : Int) {n : Int} (hn : 0 < n) :
    powValue k p a n = powLoop k p 64 n.toNat a (pow10 k) := by
  rw [powValue, if_neg hn.ne', powBase, if_neg hn.not_gt, show n.natAbs = n.toNat by omega]

theorem powValue_of_neg (k : Nat) (p : EffectivePolicy) (a : Int) {n : Int} (hn : n < 0) :
    powValue k p a n = (invStep k p a).bind fun base => powLoop k p 64 (-n).toNat base (pow10 k) := by
  rw [powValue, if_neg hn.ne, powBase, if_pos hn, show n.natAbs = (-n).toNat by omega]
  cases invStep k p a <;> rfl

theorem fits64_of_invStep {k : Nat} {p : EffectivePolicy} {a v : Int} (h : invStep k p a = .ok v) :
    fits64 v = true := by
  rw [invStep, checkedDivision] at h
  split at h
  · cases h
  · exact fits64_of_roundFit h

/-- An operation's single result word is that of the value its steps end with. -/
theorem eq_ok_of_respondWith {x : Except Err Int} {r0 r1 : Word} (h : respondWith x = .ok (r0, r1)) :
    ∃ v, x = .ok v ∧ r0 = bits64 v := by
  cases x with
  | error e => cases h
  | ok v => exact ⟨v, rfl, (congrArg Prod.fst (Except.ok.inj h)).symm⟩

theorem fits64_pow10 {f : Fields} (hf : f.wellFormed = true) : fits64 (pow10 f.scale) = true :=
  (fits64_iff_inRange _).mpr (inRange_pow10 (by simpa [Fields.wellFormed] using hf))

/-- Settles O36: the model's 64 rounds are enough for an exponent of at most 2^63, and each of its steps is MUL's on words. -/
theorem powAnswers : Obligations.PowAnswers := by
  intro f s hf
  have hone := fits64_pow10 hf
  have hmin := BitVec.le_toInt s.ins.cmdB
  have hmax := s.ins.cmdB.toInt_lt
  have hres : resultOf (.pow f) s.ins.cmdA s.ins.cmdB =
    respondWith (powValue f.scale (generalPolicy f) s.ins.cmdA.toInt s.ins.cmdB.toInt) := rfl
  refine ⟨opcodeOf_eq_opcode _, fun hn => ?_, fun hn r hr => ?_, fun hn => ⟨fun e he => ?_, fun base hbase r hr => ?_⟩⟩
  · rw [hn, powValue_zero] at hres
    exact completes_outcomeOf hres
  · rw [powValue_of_pos _ _ _ hn, pow10, powLoop_of_ends hr 63 (by omega) (fits64_sint64 _) hone] at hres
    exact completes_outcomeOf hres
  · have hinv : invStep f.scale (generalPolicy f) s.ins.cmdA.toInt = .error e := respondWith_eq_error_iff.mp he
    rw [powValue_of_neg _ _ _ hn, hinv] at hres
    exact completes_outcomeOf hres
  · obtain ⟨v, hinv, rfl⟩ : ∃ v, invStep f.scale (generalPolicy f) s.ins.cmdA.toInt = .ok v ∧ base = bits64 v :=
      eq_ok_of_respondWith hbase
    have hv : (bits64 v).toInt = v := sint64_bits64 (fits64_of_invStep hinv)
    rw [hv] at hr
    rw [powValue_of_neg _ _ _ hn, hinv, Except.bind, pow10,
      powLoop_of_ends hr 63 (by omega) (fits64_of_invStep hinv) hone] at hres
    exact completes_outcomeOf hres

/-- An exponent of 1 leaves the one multiplication that is exact. -/
theorem powLoop_one (k : Nat) (p : EffectivePolicy) (rounds : Nat) {base : Int} (hb : fits64 base = true) :
    powLoop k p (rounds + 1) 1 base (pow10 k) = .ok base := by
  rw [powLoop_succ, if_pos (by decide), mulStep_pow10_left, fit_of_fits hb, Except.bind,
    if_pos (Nat.div_eq_of_lt one_lt_two)]

theorem powValue_one (k : Nat) (p : EffectivePolicy) {a : Int} (ha : fits64 a = true) : powValue k p a 1 = .ok a :=
  (powValue_of_pos k p a one_pos).trans (powLoop_one k p 63 ha)

theorem powValue_neg_one (k : Nat) (p : EffectivePolicy) (a : Int) : powValue k p a (-1) = invStep k p a := by
  rw [powValue_of_neg k p a (by decide)]
  cases h : invStep k p a with
  | error e => rfl
  | ok base => exact powLoop_one k p 63 (fits64_of_invStep h)

/-- Settles O38: at exponent 1 or -1 the loop multiplies its base by 10^s once, which is exact. -/
theorem powOfUnitExponents : Obligations.PowOfUnitExponents := by
  intro f A B
  constructor
  · rw [resultOf, powResult, show sint64 (1 : Word) = 1 by decide, powValue_one _ _ (fits64_sint64 A), respondWith, respond1,
      respond2, bits64_sint64]
    rfl
  · rw [resultOf, resultOf, powResult, show sint64 (-1 : Word) = -1 by decide, powValue_neg_one, invResult]

/-! ## POW at scale 0 (R172, R117) -/

/-- At scale 0 a round multiplies the accumulator by the base as often as the last bit of the exponent says. -/
theorem powLoop_scale_zero_succ (p : EffectivePolicy) (rounds m : Nat) (base : Int) {acc : Int} (ha : fits64 acc = true) :
    powLoop 0 p (rounds + 1) m base acc =
      (fit (acc * base ^ (m % 2)) p.om).bind fun acc' =>
        if m / 2 = 0 then .ok acc'
        else (fit (base * base) p.om).bind fun base' => powLoop 0 p rounds (m / 2) base' acc' := by
  rw [powLoop_succ, mulStep_scale_zero, mulStep_scale_zero]
  rcases Nat.mod_two_eq_zero_or_one m with h | h
  · rw [h, if_neg (by decide), pow_zero, mul_one, fit_of_fits ha]
  · rw [h, if_pos rfl, pow_one]

/-- A power by the last bit of its exponent and the square of its base. -/
theorem mul_pow_eq_mul_sq_pow (acc base : Int) (m : Nat) :
    acc * base ^ m = acc * base ^ (m % 2) * (base * base) ^ (m / 2) := by
  rw [mul_assoc, ← pow_two, ← pow_mul, ← pow_add, Nat.mod_add_div]

theorem fit_unchecked_eq (v : Int) : fit v .unchecked = .ok (wrap64 v) := by
  unfold fit
  split
  · next h => rw [wrap64_eq, sint64_bits64 h]
  · rfl

theorem wrap64_modEq (v : Int) : wrap64 v ≡ v [ZMOD 2 ^ 64] := by
  unfold wrap64 Int.ModEq
  omega

theorem wrap64_congr {v w : Int} (h : v ≡ w [ZMOD 2 ^ 64]) : wrap64 v = wrap64 w := by
  unfold Int.ModEq at h
  unfold wrap64
  omega

/-- Under UNCHECKED every step wraps, and the last wrap is that of the exact power. -/
theorem powLoop_scale_zero_unchecked (rm : RoundingMode) (rounds : Nat) :
    ∀ (m : Nat) (base acc : Int), m < 2 ^ rounds → fits64 acc = true →
      powLoop 0 ⟨rm, .unchecked⟩ rounds m base acc = fit (acc * base ^ m) .unchecked := by
  induction rounds with
  | zero =>
    intro m base acc hm ha
    obtain rfl : m = 0 := by omega
    rw [pow_zero, mul_one, fit_of_fits ha]
    rfl
  | succ rounds ih =>
    intro m base acc hm ha
    rw [powLoop_scale_zero_succ _ _ _ _ ha, mul_pow_eq_mul_sq_pow acc base m, fit_unchecked_eq, fit_unchecked_eq,
      fit_unchecked_eq, Except.bind]
    split
    · next hlast => rw [hlast, pow_zero, mul_one]
    · rw [Except.bind, ih _ _ _ (by omega) (fits64_wrap64 _), fit_unchecked_eq]
      exact congrArg _ (wrap64_congr ((wrap64_modEq _).mul ((wrap64_modEq _).pow _)))

/-- A product by a positive integer is in range only where its other factor is. -/
theorem fits64_of_mul_pos {v k : Int} (hk : 0 < k) (h : fits64 (v * k) = true) : fits64 v = true := by
  rw [fits64_iff, int64Min, int64Max] at *
  constructor <;> nlinarith

/-- A square that is a factor of a product in range is in range: 2^63 itself is no square, so the sign does not matter. -/
theorem fits64_sq_of_mul {c b : Int} (hc : c ≠ 0) (h : fits64 (c * (b * b)) = true) : fits64 (b * b) = true := by
  have hsq : b * b ≠ 9223372036854775808 := by
    obtain hb | hb | hb : b ≤ -3037000500 ∨ (-3037000499 ≤ b ∧ b ≤ 3037000499) ∨ 3037000500 ≤ b := by omega
    · nlinarith
    · nlinarith
    · nlinarith
  have h0 := mul_self_nonneg b
  rw [fits64_iff, int64Min, int64Max] at *
  generalize b * b = q at *
  obtain hc | hc : c ≤ -1 ∨ 1 ≤ c := by omega
  · have : c * q ≤ -1 * q := mul_le_mul_of_nonneg_right hc h0
    omega
  · have : 1 * q ≤ c * q := mul_le_mul_of_nonneg_right hc h0
    omega

/-- Under CHECKED a squaring that is still needed is in range where the power is. -/
theorem fits64_sq_of_mul_pow {c b : Int} {j : Nat} (hc : c ≠ 0) (hj : j ≠ 0) (h : fits64 (c * (b * b) ^ j) = true) :
    fits64 (b * b) = true := by
  obtain ⟨i, rfl⟩ := Nat.exists_eq_succ_of_ne_zero hj
  rcases eq_or_ne b 0 with rfl | hb
  · exact fits64_zero
  · rw [pow_succ', ← mul_assoc] at h
    exact fits64_sq_of_mul hc (fits64_of_mul_pos (pow_pos (mul_self_pos.mpr hb) i) h)

/-- Under CHECKED a step overflows only where the exact power does: the factors still to come are squares of the base, and none
of them is 0 unless the base is. -/
theorem powLoop_scale_zero_checked (rm : RoundingMode) (rounds : Nat) :
    ∀ (m : Nat) (base acc : Int), m < 2 ^ rounds → fits64 acc = true → (acc = 0 → base = 0) →
      powLoop 0 ⟨rm, .checked⟩ rounds m base acc = fit (acc * base ^ m) .checked := by
  induction rounds with
  | zero =>
    intro m base acc hm ha _
    obtain rfl : m = 0 := by omega
    rw [pow_zero, mul_one, fit_of_fits ha]
    rfl
  | succ rounds ih =>
    intro m base acc hm ha hzero
    have hzero' : acc * base ^ (m % 2) = 0 → base = 0 := fun h =>
      (mul_eq_zero.mp h).elim hzero fun hp => eq_zero_of_pow_eq_zero hp
    have hbase0 : base = 0 → fits64 (acc * base ^ (m % 2)) = true := by
      rintro rfl
      rcases Nat.mod_two_eq_zero_or_one m with h | h <;> simp [h, ha, fits64_zero]
    rw [powLoop_scale_zero_succ _ _ _ _ ha, mul_pow_eq_mul_sq_pow acc base m]
    generalize acc * base ^ (m % 2) = acc' at *
    cases hacc : fits64 acc' with
    | false =>
      have hb : base ≠ 0 := fun h => by simp [hbase0 h] at hacc
      have hpow : fits64 (acc' * (base * base) ^ (m / 2)) = false := by
        rw [← Bool.not_eq_true] at hacc ⊢
        exact mt (fits64_of_mul_pos (pow_pos (mul_self_pos.mpr hb) _)) hacc
      rw [fit_checked hacc, fit_checked hpow]
      rfl
    | true =>
      rw [fit_of_fits hacc, Except.bind]
      split
      · next hlast => rw [hlast, pow_zero, mul_one, fit_of_fits hacc]
      · next hmore =>
        cases hsq : fits64 (base * base) with
        | false =>
          have hb : base ≠ 0 := by
            rintro rfl
            exact absurd hsq (by decide)
          have hpow : fits64 (acc' * (base * base) ^ (m / 2)) = false := by
            rw [← Bool.not_eq_true] at hsq ⊢
            exact mt (fits64_sq_of_mul_pow (mt hzero' hb) hmore) hsq
          rw [fit_checked hsq, fit_checked hpow]
          rfl
        | true =>
          rw [fit_of_fits hsq, Except.bind]
          exact ih _ _ _ (by omega) hacc fun h => by rw [hzero' h, mul_zero]

/-- At scale 0 POW is the exact power, range-checked, for an exponent of at most 63 bits. -/
theorem powValue_scale_zero (p : EffectivePolicy) (a : Int) {n : Int} (h0 : 0 ≤ n) (hn : n < 2 ^ 63) :
    powValue 0 p a n = fit (a ^ n.toNat) p.om := by
  have hone : fits64 1 = true := by decide
  rcases h0.eq_or_lt with rfl | hpos
  · rw [Int.toNat_zero, pow_zero, fit_of_fits hone]
    exact powValue_zero 0 p a
  · rw [powValue_of_pos 0 p a hpos, ← one_mul (a ^ n.toNat)]
    obtain ⟨rm, om⟩ := p
    cases om with
    | checked => exact powLoop_scale_zero_checked rm 64 _ a 1 (by omega) hone nofun
    | unchecked => exact powLoop_scale_zero_unchecked rm 64 _ a 1 (by omega) hone

/-- Settles O37: at scale 0 no step rounds, and checking or wrapping each of them is checking or wrapping the exact power. -/
theorem powAtScaleZero : Obligations.PowAtScaleZero := by
  intro p s hn
  exact completes_fitted (congrArg respondWith (powValue_scale_zero _ _ hn s.ins.cmdB.toInt_lt))

end Sys2Proof.Proofs

/-! Shifts (R180, R181) and rounding to a precision (R182): each shift is one rounded quotient at any distance, and a
multiple of the power of ten is its own rounding. -/

namespace Sys2Proof.Proofs

open Sys2Proof.Machine Sys2Proof.Safety Sys2Proof.Laws

/-! ## Rounding by a positive divisor (R113) -/

theorem isRounding_iff_of_pos {rm : RoundingMode} {n d v : Int} (hd : 0 < d) :
    IsRounding rm n d v ↔ IsRoundedQuotient rm n d v := by
  rw [IsRounding, Int.sign_eq_one_of_pos hd, mul_one, abs_of_pos hd]

/-- FLOOR by a positive divisor is floor division. -/
theorem roundDiv_floor (n : Int) {d : Int} (hd : 0 < d) : roundDiv n d .floor = .ok (n / d) := by
  rw [roundDiv_eq_ok_iff .floor hd.ne', isRounding_iff_of_pos hd]
  exact ⟨Int.ediv_mul_le n hd.ne', Int.lt_ediv_add_one_mul_self n hd⟩

/-! ## SHL and SHR as one rounded quotient (R180, R181) -/

/-- A shift up is a quotient by `2 ^ 0`, which every mode leaves as it is. -/
theorem shiftUp_eq_roundFit (a : Int) (m : Nat) {j : Nat} (hj : j = 0) (p : EffectivePolicy) :
    shiftUp a m p = roundFit (a * 2 ^ m) (2 ^ j) p.rm p.om := by
  have h := roundFit_mul_self (a * 2 ^ m) one_pos p.rm p.om
  rw [mul_one] at h
  rw [shiftUp_eq, hj, pow_zero, h, pow2]

/-- A shift down is the quotient of the word times `2 ^ 0`. -/
theorem shiftDown_eq_roundFit (A : Word) {m : Nat} (hm : m = 0) (j : Nat) (p : EffectivePolicy) :
    shiftDown (sint64 A) j p = roundFit (sint64 A * 2 ^ m) (2 ^ j) p.rm p.om := by
  rw [shiftDown_eq (abs_sint64_le A), hm, pow_zero, mul_one, pow2]

theorem shlResult_eq_roundFit (f : Fields) (A B : Word) :
    shlResult f A B = respondWith (roundFit (sint64 A * 2 ^ (sint64 B).toNat) (2 ^ (-sint64 B).toNat)
      (shiftPolicy f).rm (shiftPolicy f).om) := by
  unfold shlResult
  split
  · next h => rw [shiftUp_eq_roundFit _ _ (Int.toNat_of_nonpos (neg_nonpos.mpr h))]
  · next h => rw [shiftDown_eq_roundFit _ (Int.toNat_of_nonpos (le_of_not_ge h))]

theorem shrResult_eq_roundFit (f : Fields) (A B : Word) :
    shrResult f A B = respondWith (roundFit (sint64 A * 2 ^ (-sint64 B).toNat) (2 ^ (sint64 B).toNat)
      (shiftPolicy f).rm (shiftPolicy f).om) := by
  unfold shrResult
  split
  · next h => rw [shiftDown_eq_roundFit _ (Int.toNat_of_nonpos (neg_nonpos.mpr h))]
  · next h => rw [shiftUp_eq_roundFit _ _ (Int.toNat_of_nonpos (le_of_not_ge h))]

/-- Settles O39: one of the two powers is `2 ^ 0`, so SHL is a rounded and range-checked quotient at every distance. -/
theorem shlAnswers : Obligations.ShlAnswers :=
  fun f _ => ⟨opcodeOf_eq_opcode _, answersRounded_of_roundFit (pow2_pos _).ne' (shlResult_eq_roundFit f _ _)⟩

/-- Settles O40: as for SHL, with the two powers exchanged. -/
theorem shrAnswers : Obligations.ShrAnswers :=
  fun f _ => ⟨opcodeOf_eq_opcode _, answersRounded_of_roundFit (pow2_pos _).ne' (shrResult_eq_roundFit f _ _)⟩

/-! ## SHR under FLOOR (R181) -/

/-- The arithmetic right shift of a word is the floor division by the power of two. -/
theorem toInt_sshiftRight_eq_ediv (A : Word) (n : Nat) : (A.sshiftRight n).toInt = A.toInt / pow2 n := by
  rw [BitVec.toInt_sshiftRight, Int.shiftRight_eq_div_pow, pow2]
  rfl

/-- Settles O41: for a distance that is not negative SHR rounds a quotient, which under FLOOR is the arithmetic shift. -/
theorem shrFloorIsArithmeticShift : Obligations.ShrFloorIsArithmeticShift := by
  intro f s hrm h0 _
  have hn : s.ins.cmdB.toInt.toNat = s.ins.cmdB.toNat := by
    rw [BitVec.toInt_eq_toNat_cond] at *
    omega
  rw [completes_iff, resultOf, shrResult_of_nonneg f _ h0, hrm, roundDiv_floor _ (pow2_pos _), sint64, sint64, hn,
    ← toInt_sshiftRight_eq_ediv]
  exact congrArg (okResponse · 0) (BitVec.ofInt_toInt ..)

/-! ## ROUND (R182) -/

theorem roundResult_of_le {f : Fields} (A : Word) {B : Word} (h : (f.scale : Int) ≤ sint64 B) :
    roundResult f A B = .ok (A, 0) := by
  rw [roundResult, if_pos h, respond1, respond2, bits64_sint64]
  rfl

theorem roundResult_of_lt {f : Fields} (A : Word) {B : Word} (h : sint64 B < f.scale) :
    roundResult f A B =
      respondWith (roundToMultiple (sint64 A) ((f.scale : Int) - sint64 B).toNat (generalPolicy f)) := by
  rw [roundResult, if_neg h.not_ge, roundToMultiple_eq (abs_sint64_le A)]

/-- Rounding to a multiple ends with the rounded quotient's multiple, range-checked. -/
theorem roundToMultiple_of_isRounding {a v : Int} {k : Nat} {p : EffectivePolicy} (h : IsRounding p.rm a (10 ^ k) v) :
    roundToMultiple a k p = fit (v * 10 ^ k) p.om := by
  rw [roundToMultiple, (roundDiv_eq_ok_iff p.rm (pow10_pos k).ne').mpr h]
  rfl

theorem roundToMultiple_of_not_dvd {a : Int} {k : Nat} {p : EffectivePolicy} (hrm : p.rm = .unnecessary)
    (h : ¬ (10 : Int) ^ k ∣ a) : roundToMultiple a k p = .error .inexact := by
  rw [roundToMultiple, (roundDiv_eq_error_iff p.rm .inexact (pow10_pos k).ne').mpr ⟨rfl, hrm, h⟩]

/-- Settles O42: ROUND is its operand for a precision of at least the scale, else the rounding to a multiple. -/
theorem roundAnswers : Obligations.RoundAnswers := by
  intro f s
  refine ⟨opcodeOf_eq_opcode _, fun h => ?_, fun h => ⟨fun v hv => ?_, fun hrm hdvd => ?_⟩⟩
  · rw [completes_iff, resultOf, roundResult_of_le _ h]
    rfl
  · apply completes_fitted
    rw [resultOf, roundResult_of_lt _ h]
    exact congrArg respondWith (roundToMultiple_of_isRounding hv)
  · apply completes_failed
    rw [resultOf, roundResult_of_lt _ h]
    exact congrArg respondWith (roundToMultiple_of_not_dvd hrm hdvd)

/-- What rounding to a multiple answers under CHECKED is a multiple that fits. -/
theorem roundToMultiple_checked {a w : Int} {k : Nat} {rm : RoundingMode}
    (h : roundToMultiple a k ⟨rm, .checked⟩ = .ok w) : ∃ v, w = v * pow10 k ∧ fits64 w = true := by
  unfold roundToMultiple at h
  split at h
  · cases h
  · next v _ =>
    cases hv : fits64 (v * pow10 k) with
    | true =>
      rw [fit_of_fits hv] at h
      obtain rfl := Except.ok.inj h
      exact ⟨v, rfl, hv⟩
    | false =>
      rw [fit_checked hv] at h
      cases h

/-- Every mode leaves a multiple as it is. -/
theorem roundToMultiple_mul_self (v : Int) (k : Nat) (p : EffectivePolicy) :
    roundToMultiple (v * pow10 k) k p = fit (v * pow10 k) p.om := by
  have hself : IsRoundedQuotient p.rm (v * pow10 k) (pow10 k) v := (isRoundedQuotient_mul_iff p.rm (pow10_pos k)).mpr rfl
  exact roundToMultiple_of_isRounding ((isRounding_iff_of_pos (pow10_pos k)).mpr hself)

/-- Settles O43: below the scale the first ROUND answers a multiple that fits, which the second leaves as it is. -/
theorem roundIdempotent : Obligations.RoundIdempotent := by
  rintro k rm A B X Y h g rfl
  rw [resultOf] at *
  rcases le_or_gt (g.scale : Int) (sint64 B) with hp | hp
  · exact roundResult_of_le X hp
  · rw [roundResult_of_lt (f := ⟨g.scale, .given rm .checked⟩) A hp] at h
    obtain ⟨w, hw, rfl⟩ := eq_ok_of_respondWith h
    obtain ⟨v, rfl, hfit⟩ := roundToMultiple_checked hw
    rw [roundResult_of_lt _ hp, sint64_bits64 hfit, roundToMultiple_mul_self, fit_of_fits hfit]
    rfl

end Sys2Proof.Proofs

/-! Average, inversion, comparison and sign (R190 to R193): a rounded quotient is less than one from the exact one, and a
sign as a response. -/

namespace Sys2Proof.Proofs

open Sys2Proof.Machine Sys2Proof.Safety Sys2Proof.Laws

/-! ## AVG (R190) -/

/-- Every mode rounds to an integer less than one from the exact quotient (R113, R114). -/
theorem abs_sub_mul_lt_of_isRoundedQuotient {rm : RoundingMode} {n d v : Int} (hd : 0 < d)
    (h : IsRoundedQuotient rm n d v) : |n - v * d| < d := by
  have hfloor : IsFloorOf n d v → |n - v * d| < d := fun ⟨hle, hlt⟩ => abs_lt.mpr ⟨by linarith, by linarith⟩
  have hceiling : IsCeilingOf n d v → |n - v * d| < d := fun ⟨hlt, hle⟩ => abs_lt.mpr ⟨by linarith, by linarith⟩
  have hnearest : IsNearestTo n d v → |n - v * d| < d := fun hle => by linarith
  cases rm with
  | up =>
    rw [IsRoundedQuotient] at h
    split at h
    · exact hceiling h
    · exact hfloor h
  | down =>
    rw [IsRoundedQuotient] at h
    split at h
    · exact hfloor h
    · exact hceiling h
  | ceiling => exact hceiling h
  | floor => exact hfloor h
  | halfUp | halfDown | halfEven | halfCeiling | halfFloor => exact hnearest h.1
  | unnecessary =>
    rw [IsRoundedQuotient] at h
    rwa [h, sub_self, abs_zero]

/-- A rounded mean lies between the two integers: the exact mean does, and it is less than one away. -/
theorem isRounding_mean_between {rm : RoundingMode} {a b v : Int} (h : IsRounding rm (a + b) 2 v) :
    min a b ≤ v ∧ v ≤ max a b := by
  have hdist := abs_sub_mul_lt_of_isRoundedQuotient two_pos ((isRounding_iff_of_pos two_pos).mp h)
  rw [abs_lt] at hdist
  omega

/-- An operation whose result is a rounded quotient that always fits answers as the rounding law says (R116). -/
theorem answersInRange_of_roundDiv {i : Instr} {s : State} {rm : RoundingMode} {n d : Int} (hd : d ≠ 0)
    (hrange : ∀ v, IsRounding rm n d v → InRange v)
    (h : resultOf i s.ins.cmdA s.ins.cmdB = respondWith (roundDiv n d rm)) : AnswersInRange i s rm n d := by
  constructor
  · intro v hv
    rw [(roundDiv_eq_ok_iff rm hd).mpr hv] at h
    exact ⟨hrange v hv, completes_outcomeOf h⟩
  · intro hrm hdvd
    rw [(roundDiv_eq_error_iff rm .inexact hd).mpr ⟨rfl, hrm, hdvd⟩] at h
    exact completes_failed h

/-- Settles O44: the rounded mean lies between the two operands, which are words, so it fits. -/
theorem avgAnswers : Obligations.AvgAnswers := by
  intro f s
  refine ⟨opcodeOf_eq_opcode _, answersInRange_of_roundDiv two_ne_zero (fun v hv => ?_) rfl, fun _ => isRounding_mean_between⟩
  have hbetween := isRounding_mean_between hv
  have hA := (fits64_iff_inRange _).mp (fits64_sint64 s.ins.cmdA)
  have hB := (fits64_iff_inRange _).mp (fits64_sint64 s.ins.cmdB)
  rw [sint64] at hA hB
  omega

/-! ## INV (R191) -/

/-- Settles O45: INV is the division of `10^(2s)` by its operand, with the zero test made first. -/
theorem invAnswers : Obligations.InvAnswers := by
  intro f s
  have hres : resultOf (.inv f) s.ins.cmdA s.ins.cmdB =
      respondWith (checkedDivision (10 ^ (2 * f.scale)) s.ins.cmdA.toInt (generalPolicy f)) := rfl
  refine ⟨opcodeOf_eq_opcode _, fun hA => ?_, fun hA => ?_⟩
  · rw [(toInt_eq_zero_iff _).mpr hA, checkedDivision_zero] at hres
    exact completes_failed hres
  · have hd : s.ins.cmdA.toInt ≠ 0 := mt (toInt_eq_zero_iff _).mp hA
    rw [checkedDivision_of_ne_zero hd] at hres
    exact answersRounded_of_roundFit hd hres

/-! ## CMP and SGN (R192, R193) -/

section

variable {i : Instr} {s : State} {v : Int} (h : resultOf i s.ins.cmdA s.ins.cmdB = respond1 v.sign)
include h

theorem completes_sign_of_neg (hv : v < 0) : Completes i s ⟨.ok, 0xFFFFFFFFFFFFFFFF, 0⟩ := by
  rw [Int.sign_eq_neg_one_of_neg hv] at h
  exact completes_outcomeOf (x := .ok (-1)) h

theorem completes_sign_of_eq_zero (hv : v = 0) : Completes i s ⟨.ok, 0, 0⟩ := by
  rw [hv, Int.sign_zero] at h
  exact completes_outcomeOf (x := .ok 0) h

theorem completes_sign_of_pos (hv : 0 < v) : Completes i s ⟨.ok, 1, 0⟩ := by
  rw [Int.sign_eq_one_of_pos hv] at h
  exact completes_outcomeOf (x := .ok 1) h

end

/-- Settles O46: the exact difference is negative, 0 or positive as `a` is less than, equal to or greater than `b`. -/
theorem cmpAnswers : Obligations.CmpAnswers := by
  intro f s
  refine ⟨opcodeOf_eq_opcode _, fun hlt => ?_, fun heq => ?_, fun hgt => ?_⟩
  · exact completes_sign_of_neg rfl (sub_neg.mpr (BitVec.slt_iff_toInt_lt.mp hlt))
  · exact completes_sign_of_eq_zero rfl (sub_eq_zero.mpr (congrArg sint64 heq))
  · exact completes_sign_of_pos rfl (sub_pos.mpr (BitVec.slt_iff_toInt_lt.mp hgt))

/-- Settles O47: the sign bit says whether the operand is negative. -/
theorem sgnAnswers : Obligations.SgnAnswers := by
  intro f s
  refine ⟨opcodeOf_eq_opcode _, fun hneg => ?_, fun hzero => ?_, fun hnonneg hne => ?_⟩
  · exact completes_sign_of_neg rfl (BitVec.toInt_neg_of_msb_true hneg)
  · exact completes_sign_of_eq_zero rfl ((toInt_eq_zero_iff _).mpr hzero)
  · exact completes_sign_of_pos rfl
      ((BitVec.toInt_nonneg_of_msb_false hnonneg).lt_of_ne' (mt (toInt_eq_zero_iff _).mp hne))

end Sys2Proof.Proofs

/-! The handshake (R252, R273 to R275, R280): what a step without reset keeps of a presented response, of the commands in flight
and of the wait for `cmd_ready`. -/

namespace Sys2Proof.Proofs

open Sys2Proof.Machine Sys2Proof.Safety Sys2Proof.Laws

variable {s t : State}

/-- Settles O6: each of the three edges a step can be answers a next state. -/
theorem stepNeverStops : Obligations.StepNeverStops :=
  fun s => ⟨stateAfter 1 s, step_stateAfter_one s⟩

/-- Settles O12: with nothing in flight at either end, the sequence of O11 is the taken responses alone on its left and the
accepted commands' alone on its right. -/
theorem programEndState : Obligations.ProgramEndState := by
  intro k s hinv hn hstart hend
  have horder := responsesInCommandOrder k s hinv hn
  simpa [hstart, hend] using horder

/-! ## A presented response (R273) -/

/-- The port values that present a response are those of the cycle in which nothing of it is left to wait for. -/
theorem ports_of_nextCycle (s : State) (e : InFlight) (q : List InFlight) :
    (nextCycle s (e :: q) 0).rspValid = true ∧
      ((nextCycle s (e :: q) 0).rspStatus, (nextCycle s (e :: q) 0).rspR0, (nextCycle s (e :: q) 0).rspR1) =
        onPorts e.response := ⟨rfl, rfl⟩

/-- While it is not taken, the oldest command stays the oldest, and its wait stays over. -/
theorem nextCycle_of_presented (hr : s.ins.rst = false) (ht : takes s = false) {e : InFlight} {q : List InFlight}
    (hq : s.inFlight = e :: q) (hw : s.headWait = 0) (h : step s = .next t) : ∃ q', t = nextCycle s (e :: q') 0 := by
  have hafter : inFlightAfter s = e :: (q ++ (acceptedNow s).map withAnswer) := by simp [inFlightAfter, ht, hq]
  have hwait : afterWait s (inFlightAfter s) = 0 := by
    rw [afterWait_of_waiting ht (by simp [hq]) (by simp [hafter]), hw]
  rw [hafter] at hwait
  rw [eq_nextCycle_of_step hr h, hafter, hwait]
  exact ⟨_, rfl⟩

/-- Settles O13: the presented response is the oldest command's, which is the oldest command still after the step. -/
theorem presentedResponseHeld : Obligations.PresentedResponseHeld := by
  intro s t hinv hr hv hready hstep
  obtain ⟨hdue, hport, -⟩ := hinv.portsAgree
  obtain ⟨hne, hw⟩ := hdue.mp hv
  obtain ⟨e, q, hq⟩ := List.exists_cons_of_ne_nil hne
  have ht : takes s = false := by simp [takes, hready]
  have he : onPorts e.response = (s.rspStatus, s.rspR0, s.rspR1) := by simpa [hq] using hport hv
  obtain ⟨q', rfl⟩ := nextCycle_of_presented hr ht hq hw hstep
  obtain ⟨hvalid, hsame⟩ := ports_of_nextCycle s e q'
  rw [he] at hsame
  simp only [Prod.mk.injEq] at hsame
  exact ⟨hvalid, hsame⟩

/-! ## `cmd_ready` (R275) -/

/-- Outside reset and with room for one more, `cmd_ready` is 1 exactly when the wait is over. -/
theorem cmdReady_nextCycle {q : List InFlight} {w : Nat} (hr : (nextCycle s q w).ins.rst = false)
    (hlen : (nextCycle s q w).inFlight.length < Config.depth) :
    (nextCycle s q w).cmdReady = true ↔ (nextCycle s q w).readyWait = 0 := by
  rw [nextCycle_ins] at hr
  rw [nextCycle_inFlight] at hlen
  simp [nextCmdReady, hr, hlen]

/-- A drawn wait counts down by one a cycle. -/
theorem nextReadyWait_of_eq_succ {n : Nat} (h : s.readyWait = n + 1) : nextReadyWait s = n := by rw [nextReadyWait, h]

/-- Where there is no reset and room throughout, `cmd_ready` is 1 after as many steps as the wait has cycles. -/
theorem cmdReady_after_readyWait :
    ∀ (n : Nat) (s : State), s.readyWait = n + 1 →
      (∀ k, k ≤ n + 1 → (stateAfter k s).ins.rst = false ∧ (stateAfter k s).inFlight.length < Config.depth) →
      (stateAfter (n + 1) s).cmdReady = true := by
  intro n
  induction n with
  | zero =>
    intro s hw hall
    have hr : s.ins.rst = false := (hall 0 (Nat.zero_le _)).1
    obtain ⟨hr', hlen'⟩ := hall 1 le_rfl
    rw [stateAfter_one_of_not_reset hr] at hr' hlen' ⊢
    exact (cmdReady_nextCycle hr' hlen').mpr (nextReadyWait_of_eq_succ hw)
  | succ n ih =>
    intro s hw hall
    have hr : s.ins.rst = false := (hall 0 (Nat.zero_le _)).1
    have hw' : (stateAfter 1 s).readyWait = n + 1 := by
      rw [stateAfter_one_of_not_reset hr, nextCycle_readyWait, nextReadyWait_of_eq_succ hw]
    rw [stateAfter_succ]
    refine ih _ hw' fun k hk => ?_
    rw [← stateAfter_succ]
    exact hall (k + 1) (by omega)

/-- Settles O15, by induction on the wait: each step takes one cycle off it, and at 0 `cmd_ready` is offered. -/
theorem readyOfferedAgain : Obligations.ReadyOfferedAgain := by
  intro s hpos hall
  obtain ⟨n, hn⟩ : ∃ n, s.readyWait = n + 1 := ⟨s.readyWait - 1, by omega⟩
  rw [hn] at hall ⊢
  exact cmdReady_after_readyWait n s hn hall

/-- Settles O16: the invariant offers `cmd_ready` only below DEPTH, so nothing joins, and what is not taken stays. -/
theorem fullUnitAcceptsNothing : Obligations.FullUnitAcceptsNothing := by
  intro s hinv hr hfull
  obtain ⟨-, hroom⟩ := hinv.depthKept
  have hready : s.cmdReady = false := by
    by_contra hc
    have hlt := hroom hr (by simpa using hc)
    omega
  have haccepted : acceptedNow s = [] := by simp [acceptedNow, accepts, hready]
  refine ⟨hready, haccepted, fun t hstep htaken => ?_⟩
  have ht : takes s = false := by simpa [takenNow] using htaken
  rw [eq_nextCycle_of_step hr hstep, nextCycle_inFlight, inFlightAfter, haccepted, afterTake_of_not_takes ht]
  simp

end Sys2Proof.Proofs

/-! Integral division and remainder (R200 to R203): the truncated quotient and its remainder are the only pair of their
kind. -/

namespace Sys2Proof.Proofs

open Sys2Proof.Machine Sys2Proof.Safety Sys2Proof.Laws

/-! ## The truncated quotient and its remainder (R11) -/

/-- The divisor of a truncated division is not 0, and its quotient and remainder are the model's. -/
theorem eq_tdiv_of_isTruncatedDivision {a b q r : Int} (h : IsTruncatedDivision a b q r) :
    b ≠ 0 ∧ tdiv a b = q ∧ a - tdiv a b * b = r := by
  obtain ⟨heq, hlt, hnonneg, hnonpos⟩ := h
  have hb : b ≠ 0 := abs_pos.mp ((abs_nonneg r).trans_lt hlt)
  rw [Int.abs_eq_natAbs b, abs_lt] at hlt
  have huniq : a.tdiv b = q ∧ a.tmod b = r := by
    rcases le_total 0 a with ha | ha
    · exact (Int.tdiv_tmod_unique ha hb).mpr ⟨by rw [heq]; ring, hnonneg ha, hlt.2⟩
    · exact (Int.tdiv_tmod_unique' ha hb).mpr ⟨by rw [heq]; ring, hlt.1, hnonpos ha⟩
  refine ⟨hb, huniq.1, ?_⟩
  rw [tdiv, huniq.1, heq, add_sub_cancel_left]

/-- The remainder of a division of words is in the 64-bit range: it is smaller than the divisor in magnitude (R201). -/
theorem inRange_of_abs_lt_toInt {r : Int} {B : Word} (h : |r| < |B.toInt|) : InRange r := by
  have hB := abs_sint64_le B
  rw [sint64] at hB
  have hr : |r| < 2 ^ 63 := h.trans_le hB
  rw [abs_lt] at hr
  omega

/-! ## DIVI (R200) -/

theorem diviResult_zero (f : Fields) (A : Word) : diviResult f A 0 = .error .divByZero := if_pos (by decide)

theorem diviResult_of_ne_zero (f : Fields) (A : Word) {B : Word} (hB : B.toInt ≠ 0) :
    diviResult f A B = respondWith (fit (tdiv A.toInt B.toInt * 10 ^ f.scale) (generalPolicy f).om) := if_neg hB

/-- Settles O48: a truncated division is that of the model, whose quotient DIVI range-checks at the scale. -/
theorem diviAnswers : Obligations.DiviAnswers := by
  intro f s
  refine ⟨opcodeOf_eq_opcode _, fun hB => completes_failed ?_, fun q r h => completes_fitted ?_⟩
  · rw [hB]
    exact diviResult_zero f _
  · obtain ⟨hB, rfl, -⟩ := eq_tdiv_of_isTruncatedDivision h
    exact diviResult_of_ne_zero f _ hB

/-! ## REM (R201) -/

theorem remResult_zero (A : Word) : remResult A 0 = .error .divByZero := if_pos (by decide)

theorem remResult_of_ne_zero (A : Word) {B : Word} (hB : B.toInt ≠ 0) :
    remResult A B = respond1 (A.toInt - tdiv A.toInt B.toInt * B.toInt) := if_neg hB

/-- Settles O49: the remainder is that of the model's division, and smaller than a word in magnitude. -/
theorem remAnswers : Obligations.RemAnswers := by
  intro f s
  refine ⟨opcodeOf_eq_opcode _, fun hB => completes_failed ?_, fun q r h => ⟨?_, ?_⟩⟩
  · rw [hB]
    exact remResult_zero _
  · obtain ⟨-, hlt, -⟩ := h
    exact inRange_of_abs_lt_toInt hlt
  · obtain ⟨hB, -, rfl⟩ := eq_tdiv_of_isTruncatedDivision h
    exact completes_outcomeOf (x := .ok _) (remResult_of_ne_zero _ hB)

/-! ## DIVREM (R202, R203) -/

theorem divremResult_zero (f : Fields) (A : Word) : divremResult f A 0 = .error .divByZero := if_pos (by decide)

/-- DIVREM answers both results where the quotient fits or wraps, else neither (R202). -/
theorem divremResult_of_ne_zero (f : Fields) (A : Word) {B : Word} (hB : B.toInt ≠ 0) :
    divremResult f A B =
      if InRange (tdiv A.toInt B.toInt * 10 ^ f.scale) ∨ (generalPolicy f).om = .unchecked then
        respond2 (tdiv A.toInt B.toInt * 10 ^ f.scale) (A.toInt - tdiv A.toInt B.toInt * B.toInt)
      else .error .overflow := by
  have hq : integralQuotient f A.toInt B.toInt = fit (tdiv A.toInt B.toInt * 10 ^ f.scale) (generalPolicy f).om := rfl
  rw [divremResult, sint64, sint64, if_neg hB, hq]
  by_cases hv : InRange (tdiv A.toInt B.toInt * 10 ^ f.scale)
  · rw [fit_of_fits ((fits64_iff_inRange _).mpr hv), if_pos (.inl hv)]
  · cases hom : (generalPolicy f).om with
    | unchecked => simp [fit_unchecked_eq, respond2]
    | checked =>
      rw [fit_checked (Bool.eq_false_iff.mpr (mt (fits64_iff_inRange _).mp hv)), if_neg (by simpa using hv)]

/-- Settles O50: DIVREM answers DIVI's quotient with REM's remainder beside it, or neither. -/
theorem divremAnswers : Obligations.DivremAnswers := by
  intro f s
  refine ⟨opcodeOf_eq_opcode _, fun hB => completes_failed ?_, fun q r h => ?_⟩
  · rw [hB]
    exact divremResult_zero f _
  · obtain ⟨hB, rfl, rfl⟩ := eq_tdiv_of_isTruncatedDivision h
    rw [completes_iff, resultOf, divremResult_of_ne_zero f _ hB, apply_ite responseOf]
    rfl

/-- Settles O51: the integer `Q` is the truncated quotient; both results are read back from their words, because they fit. -/
theorem divisionIdentity : Obligations.DivisionIdentity := by
  intro f A B q r h hv
  rcases eq_or_ne B.toInt 0 with hB | hB
  · rw [(toInt_eq_zero_iff B).mp hB, resultOf, divremResult_zero] at h
    cases h
  · rw [resultOf, divremResult_of_ne_zero f A hB, if_pos (.inl hv), respond2, Except.ok.injEq, Prod.mk.injEq] at h
    obtain ⟨rfl, rfl⟩ := h
    obtain ⟨heq, hlt, -⟩ := divider_spec A.toInt hB
    simp only [divider] at heq hlt
    have hq := sint64_bits64 ((fits64_iff_inRange _).mpr hv)
    have hr := sint64_bits64 ((fits64_iff_inRange _).mpr (inRange_of_abs_lt_toInt hlt))
    rw [sint64] at hq hr
    refine ⟨tdiv A.toInt B.toInt, hq, ?_, ?_⟩
    · rw [hr]
      exact heq.symm
    · rwa [hr]

end Sys2Proof.Proofs

/-! Conversions (R210 to R213): an integer, an unscaled value and a binary64 value brought to the scale, each as one rounded or
range-checked quotient. -/

namespace Sys2Proof.Proofs

open Sys2Proof.Machine Sys2Proof.Safety Sys2Proof.Laws

/-! ## FROMLONG (R210) -/

theorem ofInt_pow10 (k : Nat) : BitVec.ofInt 64 (10 ^ k) = (10 : Word) ^ k := by
  induction k with
  | zero => rfl
  | succ k ih => rw [pow_succ, BitVec.ofInt_mul, ih, pow_succ]; rfl

/-- The low 64 bits of the exact multiple are the wrapped multiple (R12). -/
theorem single_toInt_mul_pow10 (A : Word) (k : Nat) : single (A.toInt * 10 ^ k) = ⟨.ok, A * 10 ^ k, 0⟩ := by
  rw [single, BitVec.ofInt_mul, BitVec.ofInt_toInt, ofInt_pow10]

/-- The integer bounds of a scale, by its definition (R105). -/
theorem inRange_mul_pow10_iff (k : Nat) (x : Int) :
    InRange (x * 10 ^ k) ↔ (-(2 ^ 63) : Int).tdiv (10 ^ k) ≤ x ∧ x ≤ (2 ^ 63 - 1 : Int) / 10 ^ k := by
  rw [← fits64_iff_inRange, fits64_iff]
  exact and_congr (minIntegerValue_le_iff k x).symm (le_maxIntegerValue_iff k x).symm

/-- Settles O52: FROMLONG is the range-checked multiple of the scale factor. -/
theorem fromlongAnswers : Obligations.FromlongAnswers := by
  intro f s
  refine ⟨opcodeOf_eq_opcode _, ?_⟩
  have h : Completes (.fromlong f) s (fitted (generalPolicy f).om (s.ins.cmdA.toInt * 10 ^ f.scale)) :=
    completes_fitted rfl
  rw [fitted, single_toInt_mul_pow10] at h
  simpa only [inRange_mul_pow10_iff] using h

/-! ## FROMUNSC (R211) -/

/-- A quotient by 1 is only range-checked. -/
theorem roundFit_one (v : Int) (rm : RoundingMode) (om : OverflowMode) : roundFit v 1 rm om = fit v om := by
  simpa using roundFit_mul_self v one_pos rm om

/-- Bringing a word from scale `t` to scale `k` is one rounded quotient, of which at most one power is not 1. -/
theorem rescale_eq_roundFit {a : Int} (ha : fits64 a = true) (t k : Nat) (p : EffectivePolicy) :
    rescale a t k p = roundFit (a * 10 ^ (k - t)) (10 ^ (t - k)) p.rm p.om := by
  unfold rescale
  split_ifs with heq hlt
  · rw [heq, Nat.sub_self, pow_zero, mul_one, roundFit_one, fit_of_fits ha]
  · rw [Nat.sub_eq_zero_of_le hlt.le, pow_zero, mul_one, pow10]
  · rw [Nat.sub_eq_zero_of_le (n := t) (by omega), pow_zero, roundFit_one, pow10]

theorem fromunscResult_of_unsupported (f : Fields) (A : Word) {B : Word} (h : B.toInt < 0 ∨ 18 < B.toInt) :
    fromunscResult f A B = .error .invalidScale := by
  rw [fromunscResult, sint64, scaleMetrics_of_unsupported h]

theorem fromunscResult_of_supported (f : Fields) (A : Word) {B : Word} (h0 : 0 ≤ B.toInt) (h18 : B.toInt ≤ 18) :
    fromunscResult f A B = respondWith (rescale A.toInt B.toInt.toNat f.scale (generalPolicy f)) := by
  rw [fromunscResult, sint64, scaleMetrics_of_supported h0 h18]
  rfl

/-- Settles O53: FROMUNSC looks its source scale up, and then brings its operand from there to the scale. -/
theorem fromunscAnswers : Obligations.FromunscAnswers := by
  intro f s
  refine ⟨opcodeOf_eq_opcode _, fun h => completes_failed (fromunscResult_of_unsupported f _ h), fun h0 h18 => ?_⟩
  refine answersRounded_of_roundFit (by positivity) ?_
  have hup : ((f.scale : Int) - s.ins.cmdB.toInt).toNat = f.scale - s.ins.cmdB.toInt.toNat := by omega
  have hdown : (s.ins.cmdB.toInt - (f.scale : Int)).toNat = s.ins.cmdB.toInt.toNat - f.scale := by omega
  rw [resultOf, fromunscResult_of_supported f _ h0 h18, hup, hdown]
  exact congrArg respondWith (rescale_eq_roundFit (fits64_sint64 _) _ _ _)

/-! ## FROMDBL (R212) -/

/-- A multiple of the divisor is rounded to its quotient by every mode. -/
theorem roundDiv_mul_self (q : Int) {d : Int} (hd : 0 < d) (rm : RoundingMode) : roundDiv (q * d) d rm = .ok q := by
  rw [roundDiv_eq_ok_iff rm hd.ne', isRounding_iff_of_pos hd]
  exact (isRoundedQuotient_mul_iff rm hd).mpr rfl

/-- The exact value `m * 2^e` times 10^k is one rounded quotient, of which at most one power of two is not 1. -/
theorem scaleDouble_eq_roundDiv (m e : Int) (k : Nat) (rm : RoundingMode) :
    scaleDouble m e k rm = roundDiv (m * 2 ^ e.toNat * 10 ^ k) (2 ^ (-e).toNat) rm := by
  unfold scaleDouble
  split
  · next he =>
    have hexact := roundDiv_mul_self (m * 2 ^ e.toNat * 10 ^ k) one_pos rm
    rw [mul_one] at hexact
    rw [Int.toNat_of_nonpos (neg_nonpos.mpr he), pow_zero, hexact]
    rfl
  · next he =>
    rw [Int.toNat_of_nonpos (not_le.mp he).le, pow_zero, mul_one]
    rfl

theorem fromdblValue_eq_roundFit (d : Binary64) (k : Nat) (p : EffectivePolicy) :
    fromdblValue d k p =
      roundFit ((binary64Value d).1 * 2 ^ (binary64Value d).2.toNat * 10 ^ k) (2 ^ (-(binary64Value d).2).toNat) p.rm p.om := by
  rw [fromdblValue, scaleDouble_eq_roundDiv]
  rfl

theorem binary64Of_exponent (w : Word) : (binary64Of w).exponent = exponentField w := by
  simp [binary64Of, exponentField, Nat.shiftRight_eq_div_pow]

theorem binary64Of_fraction (w : Word) : (binary64Of w).fraction = fractionField w := by
  simp [binary64Of, fractionField]

theorem binary64Of_sign (w : Word) : (binary64Of w).sign = signField w := by
  have h : w.getLsbD 63 = w.msb := w.msb_eq_getLsbD_last.symm
  rw [binary64Of, h, BitVec.msb_eq_decide]
  rfl

/-- The significand and the power of two by the fields of the word (R54). -/
theorem binary64Value_binary64Of (w : Word) :
    binary64Value (binary64Of w) =
      ((if signField w then -1 else 1) *
          ((if exponentField w = 0 then fractionField w else 2 ^ 52 + fractionField w : Nat) : Int),
        if exponentField w = 0 then -1074 else (exponentField w : Int) - 1075) := by
  rw [binary64Value, binary64Of_exponent, binary64Of_fraction, binary64Of_sign]
  cases signField w <;> by_cases h : exponentField w = 0 <;> simp [h]

theorem fromdblResult_of_special (f : Fields) {A : Word} (h : exponentField A = 2047) :
    fromdblResult f A = .error .invalidOperand := if_pos ((binary64Of_exponent A).trans h)

theorem fromdblResult_of_finite (f : Fields) {A : Word} (h : exponentField A ≠ 2047) :
    fromdblResult f A = respondWith (fromdblValue (binary64Of A) f.scale (generalPolicy f)) :=
  if_neg (by rwa [binary64Of_exponent])

/-- Settles O54: a finite pattern's exact value times 10^s is one rounded and range-checked quotient. -/
theorem fromdblAnswers : Obligations.FromdblAnswers := by
  intro f s
  refine ⟨opcodeOf_eq_opcode _, fun h => completes_failed (fromdblResult_of_special f h), fun h => ?_⟩
  refine answersRounded_of_roundFit (by positivity) ?_
  rw [resultOf, fromdblResult_of_finite f h, fromdblValue_eq_roundFit, binary64Value_binary64Of]

/-! ## TOLONG (R213) -/

/-- A word divided by a positive integer is rounded to an integer in the 64-bit range: it is no larger than the word. -/
theorem inRange_of_isRounding_toInt {A : Word} {rm : RoundingMode} {d v : Int} (hd : 0 < d)
    (h : IsRounding rm A.toInt d v) : InRange v := by
  have hbetween := roundDiv_between hd ((roundDiv_eq_ok_iff rm hd.ne').mpr h)
  have hmin := BitVec.le_toInt A
  have hmax := A.toInt_lt
  omega

/-- Settles O55: TOLONG is the operand's rounded quotient by the scale factor. -/
theorem tolongAnswers : Obligations.TolongAnswers :=
  fun f _ => ⟨opcodeOf_eq_opcode _,
    answersInRange_of_roundDiv (pow10_pos f.scale).ne' (fun _ => inRange_of_isRounding_toInt (pow10_pos f.scale)) rfl⟩

end Sys2Proof.Proofs

/-! Statuses (R241 to R250): which errors each operation raises, under which modes, and operands for which it raises them. -/

namespace Sys2Proof.Proofs

open Sys2Proof.Machine Sys2Proof.Safety Sys2Proof.Laws

/-! ## The errors a computation can raise -/

/-- A computation under the policy `p` raises only errors of `es`, an OVERFLOW only under CHECKED and an INEXACT only under
UNNECESSARY. -/
def RaisesOnly {α : Type} (p : EffectivePolicy) (es : List Err) (x : Except Err α) : Prop :=
  ∀ e, x = .error e → e ∈ es ∧ (e = .overflow → p.om = .checked) ∧ (e = .inexact → p.rm = .unnecessary)

section
variable {α β : Type} {p : EffectivePolicy} {es es' : List Err}

theorem raisesOnly_ok (v : α) : RaisesOnly p es (.ok v : Except Err α) := nofun

theorem raisesOnly_error {e : Err} (he : e ∈ es) (ho : e ≠ .overflow) (hi : e ≠ .inexact) :
    RaisesOnly p es (.error e : Except Err α) := by
  rintro _ ⟨⟩
  exact ⟨he, (absurd · ho), (absurd · hi)⟩

theorem RaisesOnly.mono {x : Except Err α} (h : RaisesOnly p es x) (hes : es ⊆ es') : RaisesOnly p es' x :=
  fun e he => ⟨hes (h e he).1, (h e he).2⟩

theorem RaisesOnly.bind {x : Except Err α} {g : α → Except Err β} (hx : RaisesOnly p es x)
    (hg : ∀ v, RaisesOnly p es (g v)) : RaisesOnly p es (x.bind g) := by
  cases x with
  | error e => rintro _ ⟨⟩; exact hx e rfl
  | ok v => exact hg v

theorem RaisesOnly.ite {c : Prop} [Decidable c] {x y : Except Err α} (hx : RaisesOnly p es x) (hy : RaisesOnly p es y) :
    RaisesOnly p es (if c then x else y) := by
  split
  · exact hx
  · exact hy

theorem RaisesOnly.respondWith {x : Except Err Int} (h : RaisesOnly p es x) : RaisesOnly p es (respondWith x) :=
  fun e he => h e (respondWith_eq_error_iff.mp he)

end

/-! ## The steps of the operations -/

section
variable (p : EffectivePolicy)

theorem raisesOnly_fit (v : Int) : RaisesOnly p [.overflow] (fit v p.om) := by
  intro e h
  obtain ⟨rfl, hom, -⟩ := fit_error h
  exact ⟨List.mem_cons_self, fun _ => hom, nofun⟩

theorem raisesOnly_roundDiv (n d : Int) : RaisesOnly p [.inexact] (roundDiv n d p.rm) := by
  intro e h
  obtain ⟨rfl, hrm⟩ := roundDiv_error h
  exact ⟨List.mem_cons_self, nofun, fun _ => hrm⟩

theorem roundFit_eq_bind (n d : Int) (rm : RoundingMode) (om : OverflowMode) :
    roundFit n d rm om = (roundDiv n d rm).bind (fit · om) := by
  rw [roundFit]
  cases roundDiv n d rm <;> rfl

theorem raisesOnly_roundFit (n d : Int) : RaisesOnly p [.overflow, .inexact] (roundFit n d p.rm p.om) := by
  rw [roundFit_eq_bind]
  exact ((raisesOnly_roundDiv p n d).mono (by simp)).bind fun v => (raisesOnly_fit p v).mono (by simp)

theorem raisesOnly_checkedDivision (n d : Int) :
    RaisesOnly p [.overflow, .divByZero, .inexact] (checkedDivision n d p) :=
  .ite (raisesOnly_error (by simp) nofun nofun) ((raisesOnly_roundFit p n d).mono (by simp))

theorem raisesOnly_powLoop (k : Nat) :
    ∀ (rounds m : Nat) (base acc : Int), RaisesOnly p [.overflow, .inexact] (powLoop k p rounds m base acc) := by
  intro rounds
  induction rounds with
  | zero => exact fun _ _ acc => raisesOnly_ok acc
  | succ rounds ih =>
    intro m base acc
    rw [powLoop_succ]
    exact (RaisesOnly.ite (raisesOnly_roundFit p _ _) (raisesOnly_ok acc)).bind fun acc' =>
      .ite (raisesOnly_ok acc') ((raisesOnly_roundFit p _ _).bind fun base' => ih _ base' acc')

theorem raisesOnly_powValue (k : Nat) (a n : Int) :
    RaisesOnly p [.overflow, .divByZero, .inexact] (powValue k p a n) := by
  have hloop (rounds m : Nat) (base acc : Int) := (raisesOnly_powLoop p k rounds m base acc).mono
    (es' := [.overflow, .divByZero, .inexact]) (by simp)
  rcases lt_trichotomy n 0 with hn | rfl | hn
  · rw [powValue_of_neg k p a hn]
    exact (raisesOnly_checkedDivision p _ a).bind fun base => hloop _ _ base _
  · rw [powValue_zero]
    exact raisesOnly_ok _
  · rw [powValue_of_pos k p a hn]
    exact hloop _ _ a _

theorem raisesOnly_sqrtRounded (n : Nat) : RaisesOnly p [.inexact] (sqrtRounded n p.rm) := by
  intro e h
  obtain ⟨rfl, hrm⟩ := applyRounding_error h
  exact ⟨List.mem_cons_self, nofun, fun _ => hrm⟩

theorem raisesOnly_shiftUp (a : Int) (n : Nat) : RaisesOnly p [.overflow, .inexact] (shiftUp a n p) :=
  (raisesOnly_fit p _).mono (by simp)

theorem raisesOnly_shiftDown (a : Int) (n : Nat) : RaisesOnly p [.overflow, .inexact] (shiftDown a n p) :=
  raisesOnly_roundFit p _ _

theorem roundToMultiple_eq_bind (a : Int) (k : Nat) :
    roundToMultiple a k p = (roundDiv a (pow10 k) p.rm).bind fun v => fit (v * pow10 k) p.om := by
  rw [roundToMultiple]
  cases roundDiv a (pow10 k) p.rm <;> rfl

theorem raisesOnly_roundToMultiple (a : Int) (k : Nat) : RaisesOnly p [.overflow, .inexact] (roundToMultiple a k p) := by
  rw [roundToMultiple_eq_bind]
  exact ((raisesOnly_roundDiv p _ _).mono (by simp)).bind fun v => (raisesOnly_fit p _).mono (by simp)

theorem raisesOnly_rescale (a : Int) (t k : Nat) : RaisesOnly p [.overflow, .inexact] (rescale a t k p) :=
  .ite (raisesOnly_ok a) (.ite (raisesOnly_roundFit p _ _) ((raisesOnly_fit p _).mono (by simp)))

theorem raisesOnly_significand (a : Int) (k : Nat) (t : Int) : RaisesOnly p [.inexact] (significand a k t p.rm) :=
  .ite (raisesOnly_roundDiv p _ _) (raisesOnly_roundDiv p _ _)

end

/-! ## The operations (R250) -/

/-- The policy an instruction runs under (R35 to R37). -/
def policyOf (i : Instr) : EffectivePolicy := if isShift i then shiftPolicy i.fields else generalPolicy i.fields

theorem raisesOnly_fromunscResult (f : Fields) (A B : Word) :
    RaisesOnly (generalPolicy f) [.overflow, .inexact, .invalidScale] (fromunscResult f A B) := by
  by_cases h : B.toInt < 0 ∨ 18 < B.toInt
  · rw [fromunscResult_of_unsupported f A h]
    exact raisesOnly_error (by simp) nofun nofun
  · rw [fromunscResult_of_supported f A (by omega) (by omega)]
    exact ((raisesOnly_rescale _ _ _ _).mono (by simp)).respondWith

theorem raisesOnly_fromdblResult (f : Fields) (A : Word) :
    RaisesOnly (generalPolicy f) [.overflow, .inexact, .invalidOperand] (fromdblResult f A) := by
  refine .ite (raisesOnly_error (by simp) nofun nofun) (.respondWith ?_)
  rw [fromdblValue_eq_roundFit]
  exact (raisesOnly_roundFit _ _ _).mono (by simp)

theorem raisesOnly_divremResult (f : Fields) (A B : Word) :
    RaisesOnly (generalPolicy f) [.overflow, .divByZero] (divremResult f A B) := by
  refine .ite (raisesOnly_error (by simp) nofun nofun) ?_
  have hq : RaisesOnly (generalPolicy f) [.overflow, .divByZero] (integralQuotient f (sint64 A) (sint64 B)) :=
    (raisesOnly_fit _ _).mono (by simp)
  split
  · next e he => rintro _ ⟨⟩; exact hq e he
  · exact raisesOnly_ok _

theorem raisesOnly_todblResult (f : Fields) (A : Word) : RaisesOnly (generalPolicy f) [.inexact] (todblResult f A) := by
  refine .ite (raisesOnly_ok _) ?_
  split
  · next e he => rintro _ ⟨⟩; exact raisesOnly_significand _ _ _ _ e he
  · exact raisesOnly_ok _

/-- Each operation raises no error but those of its row, OVERFLOW only under CHECKED and INEXACT only under UNNECESSARY. -/
theorem raisesOnly_resultOf (i : Instr) (A B : Word) : RaisesOnly (policyOf i) (errorsOf i) (resultOf i A B) := by
  cases i with
  | add | sub | mull | fromlong => exact (raisesOnly_fit _ _).respondWith
  | mul | sqr => exact (raisesOnly_roundFit _ _ _).respondWith
  | div | divl | inv => exact (raisesOnly_checkedDivision _ _ _).respondWith
  | pow => exact (raisesOnly_powValue _ _ _ _).respondWith
  | shl => exact .respondWith (.ite (raisesOnly_shiftUp _ _ _) (raisesOnly_shiftDown _ _ _))
  | shr => exact .respondWith (.ite (raisesOnly_shiftDown _ _ _) (raisesOnly_shiftUp _ _ _))
  | sqrt =>
    exact .ite (raisesOnly_error (by simp [errorsOf]) nofun nofun)
      ((raisesOnly_sqrtRounded _ _).mono (by simp [errorsOf])).respondWith
  | round => exact .ite (raisesOnly_ok _) (raisesOnly_roundToMultiple _ _ _).respondWith
  | avg | tolong => exact (raisesOnly_roundDiv _ _ _).respondWith
  | cmp | sgn => exact raisesOnly_ok _
  | divi =>
    exact .ite (raisesOnly_error (by simp [errorsOf]) nofun nofun)
      ((raisesOnly_fit _ _).mono (by simp [errorsOf])).respondWith
  | rem => exact .ite (raisesOnly_error (by simp [errorsOf]) nofun nofun) (raisesOnly_ok _)
  | divrem f => exact raisesOnly_divremResult f A B
  | fromunsc f => exact raisesOnly_fromunscResult f A B
  | fromdbl f => exact raisesOnly_fromdblResult f A
  | todbl f => exact raisesOnly_todblResult f A

/-- An instruction runs under a default policy or under the one its command supplies (R35). -/
theorem policyOf_cases (i : Instr) :
    policyOf i = shiftDefault ∨ policyOf i = generalDefault ∨ i.fields.policy = .given (policyOf i).rm (policyOf i).om := by
  unfold policyOf shiftPolicy generalPolicy
  cases i.fields.policy with
  | noPolicy => cases isShift i <;> simp [effectivePolicy]
  | given rm om => exact .inr (.inr (by rw [effectivePolicy, effectivePolicy, ite_self]))

/-- No default policy is CHECKED (R36, R37). -/
theorem policy_of_policyOf_checked {i : Instr} (h : (policyOf i).om = .checked) :
    ∃ rm, i.fields.policy = .given rm .checked := by
  rcases policyOf_cases i with hp | hp | hp
  · cases (hp ▸ h : shiftDefault.om = .checked)
  · cases (hp ▸ h : generalDefault.om = .checked)
  · exact ⟨_, h ▸ hp⟩

/-- No default policy is UNNECESSARY (R36, R37). -/
theorem policy_of_policyOf_unnecessary {i : Instr} (h : (policyOf i).rm = .unnecessary) :
    ∃ om, i.fields.policy = .given .unnecessary om := by
  rcases policyOf_cases i with hp | hp | hp
  · cases (hp ▸ h : shiftDefault.rm = .unnecessary)
  · cases (hp ▸ h : generalDefault.rm = .unnecessary)
  · exact ⟨_, h ▸ hp⟩

/-! ## Operands that raise each error of a row -/

/-- An operation raises an error for some legal fields and operands. -/
def CanRaise (i : Instr) (e : Err) : Prop := ∃ g A B, g.wellFormed = true ∧ resultOf (withFields g i) A B = .error e

/-- INT64_MIN at scale 18 overflows with a small second operand, positive or negative as the operation asks; MUL needs a large
one, INV a small divisor, and FROMDBL the pattern of 2^63. -/
theorem canRaise_overflow {i : Instr} (h : .overflow ∈ errorsOf i) : CanRaise i .overflow := by
  cases i with
  | add | divl | shr => exact ⟨⟨18, .given .up .checked⟩, 0x8000000000000000, -1, rfl, rfl⟩
  | mul => exact ⟨⟨18, .given .up .checked⟩, 0x8000000000000000, 0x8000000000000000, rfl, rfl⟩
  | inv => exact ⟨⟨18, .given .up .checked⟩, 1, 0, rfl, rfl⟩
  | fromdbl => exact ⟨⟨18, .given .up .checked⟩, 0x43E0000000000000, 0, rfl, rfl⟩
  | sub | mull | fromlong | sqr | round | div | pow | shl | divi | divrem | fromunsc =>
    exact ⟨⟨18, .given .up .checked⟩, 0x8000000000000000, 2, rfl, rfl⟩
  | _ => simp [errorsOf] at h

/-- The operand 3 at scale 1 has no exact result; a second operand of -8 makes the sum odd and SHL and ROUND discard digits, but
would make SHR shift up and is no source scale. For FROMDBL, the pattern of 0.25. -/
theorem canRaise_inexact {i : Instr} (h : .inexact ∈ errorsOf i) : CanRaise i .inexact := by
  cases i with
  | fromdbl => exact ⟨⟨1, .given .unnecessary .checked⟩, 0x3FD0000000000000, 0, rfl, rfl⟩
  | shr | fromunsc => exact ⟨⟨1, .given .unnecessary .checked⟩, 3, 8, rfl, rfl⟩
  | mul | sqr | div | divl | inv | pow | shl | sqrt | round | avg | tolong | todbl =>
    exact ⟨⟨1, .given .unnecessary .checked⟩, 3, -8, rfl, rfl⟩
  | _ => simp [errorsOf] at h

/-- A divisor of 0; for POW the inversion of 0, under a negative exponent. -/
theorem canRaise_divByZero {i : Instr} (h : .divByZero ∈ errorsOf i) : CanRaise i .divByZero := by
  cases i with
  | pow => exact ⟨⟨1, .noPolicy⟩, 0, -1, rfl, rfl⟩
  | div | divl | inv | divi | divrem | rem => exact ⟨⟨1, .noPolicy⟩, 0, 0, rfl, rfl⟩
  | _ => simp [errorsOf] at h

/-- The all-ones word is negative as an integer and a NaN as a binary64 pattern. -/
theorem canRaise_invalidOperand {i : Instr} (h : .invalidOperand ∈ errorsOf i) : CanRaise i .invalidOperand := by
  cases i with
  | sqrt | fromdbl => exact ⟨⟨1, .noPolicy⟩, -1, 0, rfl, rfl⟩
  | _ => simp [errorsOf] at h

/-- A negative source scale. -/
theorem canRaise_invalidScale {i : Instr} (h : .invalidScale ∈ errorsOf i) : CanRaise i .invalidScale := by
  cases i with
  | fromunsc => exact ⟨⟨1, .noPolicy⟩, 0, -1, rfl, rfl⟩
  | _ => simp [errorsOf] at h

theorem incompatibleScale_not_mem_errorsOf (i : Instr) : .incompatibleScale ∉ errorsOf i := by
  cases i <;> simp [errorsOf]

theorem illegalCommand_not_mem_errorsOf (i : Instr) : .illegalCommand ∉ errorsOf i := by
  cases i <;> simp [errorsOf]

/-- Settles O21: what the steps of an operation can raise makes up its row, and each error of a row has operands that raise
it. -/
theorem errorsOfEachOperation : Obligations.ErrorsOfEachOperation := by
  constructor
  · intro i A B e h
    obtain ⟨hmem, hover, hinex⟩ := raisesOnly_resultOf i A B e h
    exact ⟨hmem, fun he => policy_of_policyOf_checked (hover he), fun he => policy_of_policyOf_unnecessary (hinex he)⟩
  · intro i e h
    cases e with
    | overflow => exact canRaise_overflow h
    | divByZero => exact canRaise_divByZero h
    | inexact => exact canRaise_inexact h
    | incompatibleScale => exact absurd h (incompatibleScale_not_mem_errorsOf i)
    | invalidScale => exact canRaise_invalidScale h
    | invalidOperand => exact canRaise_invalidOperand h
    | illegalCommand => exact absurd h (illegalCommand_not_mem_errorsOf i)

/-! ## Code 4 (R245) -/

theorem errCode_eq_four_iff (e : Err) : errCode e = 4 ↔ e = .incompatibleScale := by cases e <;> decide

theorem decodeErr_ne_incompatibleScale (d : DecodeError) : d.err ≠ .incompatibleScale := by cases d <;> decide

/-- A command is answered OK or with the error of a decode check or of its operation's row. -/
theorem statusCode_answer_ne_four (c : Command) : statusCode (answer c).status ≠ 4 := by
  unfold answer
  split
  · next d _ => exact mt (errCode_eq_four_iff _).mp (decodeErr_ne_incompatibleScale d)
  · next i _ =>
    cases hr : resultOf i c.a c.b with
    | ok w => exact nofun
    | error e =>
      obtain ⟨hmem, -⟩ := raisesOnly_resultOf i c.a c.b e hr
      refine mt (errCode_eq_four_iff e).mp ?_
      rintro rfl
      exact incompatibleScale_not_mem_errorsOf i hmem

/-- Settles O19: no decode check and no operation's row holds INCOMPATIBLE_SCALE, the one status of code 4. -/
theorem neverIncompatibleScale : Obligations.NeverIncompatibleScale :=
  ⟨⟨rfl, rfl, rfl, rfl, rfl, rfl, rfl, rfl⟩, statusCode_answer_ne_four⟩

end Sys2Proof.Proofs

/-! The host-side text (R230 to R232): the digits RENDER writes are the digits PARSE reads, and PARSE ends as FROMUNSC does. -/

namespace Sys2Proof.Proofs

open Sys2Proof.Machine Sys2Proof.Safety Sys2Proof.Laws

/-! ## PARSE by FROMUNSC (R211, R232) -/

/-- PARSE of an accepted text is its integer of digits, brought from the scale of its fraction digits. -/
theorem parse_eq_roundFit {t : List Char} {d : DecimalText} (ht : scanDecimal t = some d) (k : Nat) (rm : RoundingMode)
    (om : OverflowMode) :
    parse t k rm om = roundFit (d.signed * 10 ^ (k - d.fraction)) (10 ^ (d.fraction - k)) rm om := by
  rw [parse, ht]
  simp only
  split
  · next hle => rw [Nat.sub_eq_zero_of_le hle, pow_zero, roundFit_one, pow10]
  · next hle => rw [Nat.sub_eq_zero_of_le (n := k) (by omega), pow_zero, mul_one, pow10]

/-- The value or error of a computation as a response. -/
theorem responseOf_respondWith (x : Except Err Int) : responseOf (respondWith x) = outcomeOf x := by
  cases x <;> rfl

/-- Settles O59: both are the same rounded and range-checked quotient of the integer of the digits. -/
theorem parseByFromunsc : Obligations.ParseByFromunsc := by
  intro t d k rm om ht hfrac hrange _
  have hfits : fits64 d.signed = true := (fits64_iff_inRange _).mpr hrange
  have hA : (BitVec.ofInt 64 d.signed).toInt = d.signed := sint64_bits64 hfits
  have hB : (BitVec.ofNat 64 d.fraction).toInt = d.fraction := by
    rw [BitVec.toInt_eq_toNat_of_lt] <;> rw [BitVec.toNat_ofNat] <;> omega
  rw [resultOf, fromunscResult_of_supported _ _ (by omega) (by omega), hA, hB, Int.toNat_natCast, rescale_eq_roundFit hfits,
    responseOf_respondWith, parse_eq_roundFit ht]
  rfl

/-! ## Digits (R230, R231) -/

theorem toNat_digitChar {d : Nat} (hd : d < 10) : (digitChar d).toNat = 48 + d := by
  interval_cases d <;> rfl

theorem digitValue_digitChar {d : Nat} (hd : d < 10) : digitValue (digitChar d) = d := by
  rw [digitValue, toNat_digitChar hd, Nat.add_sub_cancel_left]

theorem isDecimalDigit_digitChar {d : Nat} (hd : d < 10) : isDecimalDigit (digitChar d) = true := by
  simp only [isDecimalDigit, toNat_digitChar hd, Bool.and_eq_true, decide_eq_true_eq]
  omega

theorem digitsValue_concat (ds : List Char) (c : Char) : digitsValue (ds ++ [c]) = 10 * digitsValue ds + digitValue c := by
  rw [digitsValue, List.foldl_append]
  rfl

theorem length_fixedDigits (k n : Nat) : (fixedDigits k n).length = k := by
  induction k generalizing n with
  | zero => rfl
  | succ k ih => simp [fixedDigits, ih]

theorem isDecimalDigit_of_mem_fixedDigits {k n : Nat} {c : Char} (h : c ∈ fixedDigits k n) : isDecimalDigit c = true := by
  induction k generalizing n with
  | zero => cases h
  | succ k ih =>
    rcases List.mem_append.mp h with h | h
    · exact ih h
    · rw [List.mem_singleton.mp h]
      exact isDecimalDigit_digitChar (Nat.mod_lt n (by norm_num))

/-- Writing `k` more digits multiplies by 10^k and adds the number the digits are of, modulo 10^k. -/
theorem digitsValue_append_fixedDigits (ds : List Char) (k n : Nat) :
    digitsValue (ds ++ fixedDigits k n) = digitsValue ds * 10 ^ k + n % 10 ^ k := by
  induction k generalizing n with
  | zero => rw [fixedDigits, List.append_nil, pow_zero, mul_one, Nat.mod_one, add_zero]
  | succ k ih =>
    rw [fixedDigits, ← List.append_assoc, digitsValue_concat, ih, digitValue_digitChar (Nat.mod_lt n (by norm_num)),
      pow_succ', Nat.mod_mul]
    ring

theorem digitsValue_fixedDigits (k n : Nat) : digitsValue (fixedDigits k n) = n % 10 ^ k := by
  simpa [digitsValue] using digitsValue_append_fixedDigits [] k n

/-- A number has no more digits than are counted. -/
theorem lt_pow_digitCount {fuel n : Nat} (h : n < 10 ^ (fuel + 1)) : n < 10 ^ digitCount fuel n := by
  induction fuel generalizing n with
  | zero => exact h
  | succ fuel ih =>
    unfold digitCount
    split
    · omega
    · have := ih (n := n / 10) (by omega)
      rw [pow_succ]
      omega

theorem digitCount_pos (fuel n : Nat) : 0 < digitCount fuel n := by
  cases fuel with
  | zero => exact one_pos
  | succ fuel =>
    unfold digitCount
    split
    · exact one_pos
    · exact Nat.succ_pos _

theorem digitsValue_plainDigits {n : Nat} (h : n < 10 ^ 21) : digitsValue (plainDigits n) = n := by
  rw [plainDigits, digitsValue_fixedDigits, Nat.mod_eq_of_lt (lt_pow_digitCount h)]

theorem plainDigits_ne_nil (n : Nat) : plainDigits n ≠ [] := by
  rw [← List.length_pos_iff, plainDigits, length_fixedDigits]
  exact digitCount_pos 20 n

theorem isDecimalDigit_of_mem_plainDigits {n : Nat} {c : Char} (h : c ∈ plainDigits n) : isDecimalDigit c = true :=
  isDecimalDigit_of_mem_fixedDigits h

/-! ## The grammar (R231) -/

section
variable {ds fs : List Char} (hne : ds ≠ []) (hds : ∀ c ∈ ds, isDecimalDigit c = true)
include hne hds

theorem scanUnsigned_integer (negative : Bool) : scanUnsigned negative ds = some ⟨negative, digitsValue ds, 0⟩ := by
  obtain ⟨c, cs, rfl⟩ := List.exists_cons_of_ne_nil hne
  rw [scanUnsigned, List.takeWhile_eq_self_iff.mpr hds, List.dropWhile_eq_nil_iff.mpr hds]

theorem scanUnsigned_point (negative : Bool) (hfs : ∀ c ∈ fs, isDecimalDigit c = true) :
    scanUnsigned negative (ds ++ '.' :: fs) = some ⟨negative, digitsValue (ds ++ fs), fs.length⟩ := by
  have hpoint : isDecimalDigit '.' = false := rfl
  obtain ⟨c, cs, rfl⟩ := List.exists_cons_of_ne_nil hne
  rw [scanUnsigned, List.takeWhile_append_of_pos hds, List.dropWhile_append_of_pos hds,
    List.takeWhile_cons_of_neg (by simp [hpoint]), List.dropWhile_cons_of_neg (by simp [hpoint]), List.append_nil]
  exact if_pos ⟨rfl, List.all_eq_true.mpr hfs⟩

end

/-- A text that begins with a digit has no sign. -/
theorem scanDecimal_of_digit {c : Char} (hc : isDecimalDigit c = true) (t : List Char) :
    scanDecimal (c :: t) = scanUnsigned false (c :: t) := by
  unfold scanDecimal
  split
  · next h => obtain ⟨rfl, -⟩ := List.cons.inj h; cases hc
  · next h => obtain ⟨rfl, -⟩ := List.cons.inj h; cases hc
  · rfl

/-! ## RENDER, then PARSE (R230 to R232) -/

/-- What RENDER writes behind the sign: the integer digits, the point and the fraction digits of a magnitude. -/
def renderMagnitude (n k : Nat) : List Char :=
  plainDigits (n / 10 ^ k) ++ (if 1 ≤ k then '.' :: fixedDigits k (n % 10 ^ k) else [])

theorem render_of_neg {a : Int} (ha : a < 0) (k : Nat) : render a k = '-' :: renderMagnitude a.natAbs k := by
  rw [render, if_pos ha]
  rfl

theorem render_of_nonneg {a : Int} (ha : 0 ≤ a) (k : Nat) : render a k = renderMagnitude a.natAbs k := by
  rw [render, if_neg ha.not_gt]
  rfl

/-- The digits of a rendered magnitude form the magnitude, and as many as the scale follow the point. -/
theorem scanUnsigned_renderMagnitude (negative : Bool) {n : Nat} (hn : n < 10 ^ 21) (k : Nat) :
    scanUnsigned negative (renderMagnitude n k) = some ⟨negative, n, k⟩ := by
  have hint : n / 10 ^ k < 10 ^ 21 := (Nat.div_le_self _ _).trans_lt hn
  have hne := plainDigits_ne_nil (n / 10 ^ k)
  have hds : ∀ c ∈ plainDigits (n / 10 ^ k), isDecimalDigit c = true := fun _ => isDecimalDigit_of_mem_plainDigits
  unfold renderMagnitude
  split
  · rw [scanUnsigned_point hne hds negative fun _ => isDecimalDigit_of_mem_fixedDigits, digitsValue_append_fixedDigits,
      digitsValue_plainDigits hint, Nat.mod_mod, Nat.div_add_mod', length_fixedDigits]
  · obtain rfl : k = 0 := by omega
    rw [pow_zero, Nat.div_one] at *
    rw [List.append_nil, scanUnsigned_integer hne hds, digitsValue_plainDigits hn]

theorem scanDecimal_renderMagnitude (n k : Nat) :
    scanDecimal (renderMagnitude n k) = scanUnsigned false (renderMagnitude n k) := by
  obtain ⟨c, cs, hcs⟩ := List.exists_cons_of_ne_nil (plainDigits_ne_nil (n / 10 ^ k))
  have hc : isDecimalDigit c = true := isDecimalDigit_of_mem_plainDigits (hcs ▸ List.mem_cons_self)
  rw [renderMagnitude, hcs]
  exact scanDecimal_of_digit hc _

/-- A rendered value is an accepted text of that value. -/
theorem scanDecimal_render {a : Int} (ha : a.natAbs < 10 ^ 21) (k : Nat) :
    ∃ d, scanDecimal (render a k) = some d ∧ d.signed = a ∧ d.fraction = k := by
  rcases lt_or_ge a 0 with h | h
  · refine ⟨⟨true, a.natAbs, k⟩, ?_, ?_, rfl⟩
    · rw [render_of_neg h]
      exact scanUnsigned_renderMagnitude true ha k
    · simp only [DecimalText.signed, if_true]
      omega
  · refine ⟨⟨false, a.natAbs, k⟩, ?_, ?_, rfl⟩
    · rw [render_of_nonneg h, scanDecimal_renderMagnitude, scanUnsigned_renderMagnitude false ha]
    · simp only [DecimalText.signed, Bool.false_eq_true, if_false]
      omega

/-- Settles O58: the rendered text is accepted with the value and its scale, so PARSE at that scale only range-checks it. -/
theorem parseOfRender : Obligations.ParseOfRender := by
  intro a k rm om ha _
  obtain ⟨d, hd, rfl, rfl⟩ := scanDecimal_render (a := a) (by omega) k
  rw [parse_eq_roundFit hd, Nat.sub_self, pow_zero, mul_one, roundFit_one, fit_of_fits ((fits64_iff_inRange _).mpr ha)]

end Sys2Proof.Proofs

/-! TODBL (R214): the significand rounded at its unit is the binary64 pattern rounded, because patterns are consecutive integers
times the unit, one binade after another. -/

namespace Sys2Proof.Proofs

open Sys2Proof.Machine Sys2Proof.Safety Sys2Proof.Laws

/-! ## A word by its sign and its low 63 bits (R54) -/

section
variable {m : Nat} (hm : m < 2 ^ 63) (negative : Bool)
include hm

theorem toNat_signedPattern : (signedPattern negative m).toNat = m + if negative then 2 ^ 63 else 0 := by
  rw [signedPattern, BitVec.toNat_ofNat]
  split <;> omega

theorem signField_signedPattern : signField (signedPattern negative m) = negative := by
  rw [signField, toNat_signedPattern hm]
  cases negative <;> simp
  omega

theorem exponentField_signedPattern : exponentField (signedPattern negative m) = m / 2 ^ 52 := by
  rw [exponentField, toNat_signedPattern hm]
  split <;> omega

theorem fractionField_signedPattern : fractionField (signedPattern negative m) = m % 2 ^ 52 := by
  rw [fractionField, toNat_signedPattern hm]
  split <;> omega

end

theorem binary64Word_eq_signedPattern (negative : Bool) {e f : Nat} (he : e < 2 ^ 11) (hf : f < 2 ^ 52) :
    binary64Word negative e f = signedPattern negative (e * 2 ^ 52 + f) := by
  apply BitVec.eq_of_toNat_eq
  rw [toNat_signedPattern (by omega), binary64Word, BitVec.toNat_append, BitVec.toNat_append, BitVec.ofInt_natCast,
    BitVec.ofInt_natCast, BitVec.toNat_ofNat, BitVec.toNat_ofNat, Nat.mod_eq_of_lt he, Nat.mod_eq_of_lt hf,
    ← Nat.shiftLeft_add_eq_or_of_lt hf, Nat.shiftLeft_eq e, ← Nat.shiftLeft_add_eq_or_of_lt (by omega), Nat.shiftLeft_eq]
  cases negative <;> simp
  omega

/-! ## Patterns as multiples of a unit (R54) -/

/-- The pattern of the significand `u` at the unit `2^t`, for `u` from 2^52 to 2^53: at 2^53 it is the first of the next
binade. -/
def patternOf (t : Int) (u : Nat) : Nat := (t + 1074).toNat * 2 ^ 52 + u

theorem patternOf_succ (t : Int) (u : Nat) : patternOf t (u + 1) = patternOf t u + 1 :=
  (Nat.add_assoc _ _ _).symm

section
variable {t : Int} {u : Nat} (ht : -1073 < t)
include ht

/-- The end of a binade is the beginning of the next. -/
theorem patternOf_top (h : u = 2 ^ 53) : patternOf t u = patternOf (t + 1) (2 ^ 52) := by
  unfold patternOf
  omega

theorem magnitudeOf_patternOf_of_lt (h : 2 ^ 52 ≤ u) (h' : u < 2 ^ 53) : magnitudeOf (patternOf t u) = u * 2 ^ t := by
  have hexp : patternOf t u / 2 ^ 52 = (t + 1075).toNat := by unfold patternOf; omega
  have hfrac : 2 ^ 52 + patternOf t u % 2 ^ 52 = u := by unfold patternOf; omega
  have hunit : (((t + 1075).toNat : Nat) : Int) - 1075 = t := by omega
  rw [magnitudeOf, if_neg (by omega), hexp, hfrac, hunit]

theorem magnitudeOf_patternOf (h : 2 ^ 52 ≤ u) (h' : u ≤ 2 ^ 53) : magnitudeOf (patternOf t u) = u * 2 ^ t := by
  rcases h'.lt_or_eq with hlt | heq
  · exact magnitudeOf_patternOf_of_lt ht h hlt
  · rw [patternOf_top ht heq, magnitudeOf_patternOf_of_lt (by omega) le_rfl (by norm_num), zpow_add_one₀ two_ne_zero, heq]
    push_cast
    ring

/-- The next pattern is one unit further, or two where the next binade begins. -/
theorem magnitudeOf_succ (h : 2 ^ 52 ≤ u) (h' : u ≤ 2 ^ 53) :
    ∃ c : ℚ, magnitudeOf (patternOf t u + 1) = c * 2 ^ t ∧ (c = u + 1 ∨ u = 2 ^ 53 ∧ c = u + 2) := by
  rcases h'.lt_or_eq with hlt | heq
  · refine ⟨u + 1, ?_, .inl rfl⟩
    rw [← patternOf_succ, magnitudeOf_patternOf ht (by omega) (by omega), Nat.cast_add, Nat.cast_one]
  · refine ⟨u + 2, ?_, .inr ⟨heq, rfl⟩⟩
    rw [patternOf_top ht heq, ← patternOf_succ, magnitudeOf_patternOf (t := t + 1) (by omega) (by norm_num) (by norm_num),
      zpow_add_one₀ two_ne_zero, heq]
    push_cast
    ring

end

section
variable {t : Int} {u : Nat} (ht : -1072 < t) (h : 2 ^ 52 ≤ u) (h' : u ≤ 2 ^ 53)
include ht h h'

/-- The previous pattern is one unit before, or half a unit where the binade begins. -/
theorem magnitudeOf_pred :
    ∃ c : ℚ, magnitudeOf (patternOf t u - 1) = c * 2 ^ t ∧ (c = u - 1 ∨ u = 2 ^ 52 ∧ c = u - 1 / 2) := by
  rcases h.lt_or_eq with hlt | heq
  · refine ⟨u - 1, ?_, .inl rfl⟩
    have hpred : patternOf t u - 1 = patternOf t (u - 1) := by unfold patternOf; omega
    rw [hpred, magnitudeOf_patternOf (by omega) (by omega) (by omega), Nat.cast_sub (by omega), Nat.cast_one]
  · refine ⟨u - 1 / 2, ?_, .inr ⟨heq.symm, rfl⟩⟩
    have hpred : patternOf t u - 1 = patternOf (t - 1) (2 ^ 53 - 1) := by unfold patternOf; omega
    rw [hpred, magnitudeOf_patternOf (t := t - 1) (by omega) (by norm_num) (by norm_num), zpow_sub_one₀ two_ne_zero,
      ← heq]
    push_cast
    ring

/-! ## Rounding to a pattern is rounding to a multiple of the unit -/

variable {y : ℚ}

theorem isPatternBelow_patternOf (hle : u ≤ y) (hlt : y < u + 1) : IsPatternBelow (y * 2 ^ t) (patternOf t u) := by
  have hunit : (0 : ℚ) < 2 ^ t := zpow_pos two_pos t
  obtain ⟨c, hc, hcu⟩ := magnitudeOf_succ (t := t) (by omega) h h'
  have hyc : y < c := by rcases hcu with rfl | ⟨-, rfl⟩ <;> linarith
  rw [IsPatternBelow, hc, magnitudeOf_patternOf (by omega) h h', mul_le_mul_iff_left₀ hunit, mul_lt_mul_iff_left₀ hunit]
  exact ⟨hle, hyc⟩

theorem isPatternAbove_patternOf (hy : 2 ^ 52 ≤ y) (hlt : u - 1 < y) (hle : y ≤ u) :
    IsPatternAbove (y * 2 ^ t) (patternOf t u) := by
  have hunit : (0 : ℚ) < 2 ^ t := zpow_pos two_pos t
  have hpos : 0 < patternOf t u := by unfold patternOf; omega
  obtain ⟨c, hc, hcu⟩ := magnitudeOf_pred ht h h'
  have hyc : c < y := by
    rcases hcu with rfl | ⟨hu, rfl⟩
    · exact hlt
    · rw [hu]
      push_cast
      linarith
  rw [IsPatternAbove, hc, magnitudeOf_patternOf (by omega) h h', mul_le_mul_iff_left₀ hunit, mul_lt_mul_iff_left₀ hunit]
  exact ⟨hpos, hyc, hle⟩

/-- Inside the binade a tie between patterns is a tie between multiples of the unit; beyond its ends there is none. -/
theorem isPatternNearest_patternOf (hy : 2 ^ 52 ≤ y) (hy' : y < 2 ^ 53) {keepLow takeHigh : Prop}
    (hlow : 2 * u - 1 ≤ 2 * y) (hhigh : 2 * y ≤ 2 * u + 1) (hkeep : 2 * y = 2 * u + 1 → keepLow)
    (htake : 2 * y = 2 * u - 1 → takeHigh) :
    IsPatternNearest (y * 2 ^ t) (patternOf t u) keepLow takeHigh := by
  have hunit : (0 : ℚ) < 2 ^ t := zpow_pos two_pos t
  have hpos : 0 < patternOf t u := by unfold patternOf; omega
  obtain ⟨c, hc, hcu⟩ := magnitudeOf_pred ht h h'
  obtain ⟨d, hd, hdu⟩ := magnitudeOf_succ (t := t) (by omega) h h'
  obtain ⟨hcy, htake'⟩ : c + u ≤ 2 * y ∧ (2 * y = c + u → takeHigh) := by
    rcases hcu with rfl | ⟨hu, rfl⟩
    · exact ⟨by linarith, fun heq => htake (by linarith)⟩
    · have huy : (u : ℚ) ≤ y := by rw [hu]; exact_mod_cast hy
      exact ⟨by linarith, fun heq => by linarith⟩
  obtain ⟨hyd, hkeep'⟩ : 2 * y ≤ u + d ∧ (2 * y = u + d → keepLow) := by
    rcases hdu with rfl | ⟨hu, rfl⟩
    · exact ⟨by linarith, fun heq => hkeep (by linarith)⟩
    · have huy : y < u := by rw [hu]; exact_mod_cast hy'
      exact ⟨by linarith, fun heq => by linarith⟩
  rw [IsPatternNearest, hc, hd, magnitudeOf_patternOf (by omega) h h', ← add_mul, ← add_mul, ← mul_assoc,
    mul_le_mul_iff_left₀ hunit, mul_le_mul_iff_left₀ hunit, mul_left_inj' hunit.ne', mul_left_inj' hunit.ne']
  exact ⟨hpos, hcy, hyd, hkeep', htake'⟩

end

/-! ## The rounded significand as a rational number -/

section
variable {n d v : Int} (hd : 0 < d)
include hd

theorem isFloorOf_iff_rat : IsFloorOf n d v ↔ (v : ℚ) ≤ n / d ∧ (n : ℚ) / d < v + 1 := by
  have hd' : (0 : ℚ) < d := by exact_mod_cast hd
  rw [IsFloorOf, le_div_iff₀ hd', div_lt_iff₀ hd']
  norm_cast

theorem isCeilingOf_iff_rat : IsCeilingOf n d v ↔ (v : ℚ) - 1 < n / d ∧ (n : ℚ) / d ≤ v := by
  have hd' : (0 : ℚ) < d := by exact_mod_cast hd
  rw [IsCeilingOf, lt_div_iff₀ hd', div_le_iff₀ hd']
  norm_cast

theorem isNearestTo_iff_rat : IsNearestTo n d v ↔ 2 * (v : ℚ) - 1 ≤ 2 * (n / d) ∧ 2 * ((n : ℚ) / d) ≤ 2 * v + 1 := by
  have hd' : (0 : ℚ) < d := by exact_mod_cast hd
  have habs : IsNearestTo n d v ↔ (2 * v - 1) * d ≤ 2 * n ∧ 2 * n ≤ (2 * v + 1) * d := by
    have h2 : 2 * |n - v * d| = |2 * (n - v * d)| := by rw [abs_mul, abs_two]
    rw [IsNearestTo, h2, abs_le]
    constructor <;> rintro ⟨h1, h2⟩ <;> constructor <;> linarith
  rw [habs, ← mul_div_assoc, le_div_iff₀ hd', div_le_iff₀ hd']
  norm_cast

/-- A tie with the next integer above. -/
theorem isHalfFrom_of_tie_above (h : 2 * ((n : ℚ) / d) = 2 * v + 1) : IsHalfFrom n d v ∧ v * d < n := by
  have hd' : (d : ℚ) ≠ 0 := by exact_mod_cast hd.ne'
  rw [← mul_div_assoc, div_eq_iff hd'] at h
  have hn : 2 * n = (2 * v + 1) * d := by exact_mod_cast h
  have habove : v * d < n := by linarith
  rw [IsHalfFrom, abs_of_pos (by linarith)]
  exact ⟨by linarith, habove⟩

/-- A tie with the next integer below. -/
theorem isHalfFrom_of_tie_below (h : 2 * ((n : ℚ) / d) = 2 * v - 1) : IsHalfFrom n d v ∧ n < v * d := by
  have hd' : (d : ℚ) ≠ 0 := by exact_mod_cast hd.ne'
  rw [← mul_div_assoc, div_eq_iff hd'] at h
  have hn : 2 * n = (2 * v - 1) * d := by exact_mod_cast h
  have hbelow : n < v * d := by linarith
  rw [IsHalfFrom, abs_of_neg (by linarith)]
  exact ⟨by linarith, hbelow⟩

/-- A rounded quotient stays between two integers the quotient lies between. -/
theorem isRoundedQuotient_between {rm : RoundingMode} (h : IsRoundedQuotient rm n d v) {b c : Int} (hb : (b : ℚ) ≤ n / d)
    (hc : (n : ℚ) / d ≤ c) : b ≤ v ∧ v ≤ c := by
  have hd' : (0 : ℚ) < d := by exact_mod_cast hd
  rw [le_div_iff₀ hd'] at hb
  rw [div_le_iff₀ hd'] at hc
  norm_cast at hb hc
  have hdist := abs_sub_mul_lt_of_isRoundedQuotient hd h
  rw [abs_lt] at hdist
  have hbv : b < v + 1 := lt_of_mul_lt_mul_right (by linarith) hd.le
  have hvc : v < c + 1 := lt_of_mul_lt_mul_right (by linarith) hd.le
  omega

end

section
variable {t n d : Int} {u : Nat} (ht : -1072 < t) (hd : 0 < d) (hn : 0 ≤ n) (hy : (2 : ℚ) ^ 52 ≤ n / d)
  (hy' : (n : ℚ) / d < 2 ^ 53)
include ht hd hy hy'

theorem isPatternNearest_of_isNearestTo (h : 2 ^ 52 ≤ u) (h' : u ≤ 2 ^ 53) (hnear : IsNearestTo n d u)
    {keepLow takeHigh : Prop} (hkeep : IsHalfFrom n d u → u * d < n → keepLow)
    (htake : IsHalfFrom n d u → n < u * d → takeHigh) :
    IsPatternNearest (n / d * 2 ^ t) (patternOf t u) keepLow takeHigh := by
  obtain ⟨hlow, hhigh⟩ := (isNearestTo_iff_rat hd).mp hnear
  refine isPatternNearest_patternOf ht h h' hy hy' hlow hhigh (fun htie => ?_) (fun htie => ?_)
  · obtain ⟨hhalf, habove⟩ := isHalfFrom_of_tie_above (v := u) hd htie
    exact hkeep hhalf habove
  · obtain ⟨hhalf, hbelow⟩ := isHalfFrom_of_tie_below (v := u) hd htie
    exact htake hhalf hbelow

include hn

/-- A quotient rounded to an integer is the pattern of that significand, rounded by the same mode. -/
theorem isRoundedPattern_patternOf {rm : RoundingMode} (h : IsRoundedQuotient rm n d u) :
    IsRoundedPattern rm false (n / d * 2 ^ t) (patternOf t u) := by
  obtain ⟨h1, h2⟩ : (2 ^ 52 : Int) ≤ u ∧ (u : Int) ≤ 2 ^ 53 :=
    isRoundedQuotient_between hd h (by exact_mod_cast hy) (by exact_mod_cast hy'.le)
  have hu : 2 ^ 52 ≤ u := by exact_mod_cast h1
  have hu' : u ≤ 2 ^ 53 := by exact_mod_cast h2
  have hbelow (hv : IsFloorOf n d u) : IsPatternBelow (n / d * 2 ^ t) (patternOf t u) := by
    obtain ⟨hle, hlt⟩ := (isFloorOf_iff_rat hd).mp hv
    exact isPatternBelow_patternOf ht hu hu' hle hlt
  have habove (hv : IsCeilingOf n d u) : IsPatternAbove (n / d * 2 ^ t) (patternOf t u) := by
    obtain ⟨hlt, hle⟩ := (isCeilingOf_iff_rat hd).mp hv
    exact isPatternAbove_patternOf ht hu hu' hy hlt hle
  have hnearest (hv : IsNearestTo n d u) {keepLow takeHigh : Prop} :=
    isPatternNearest_of_isNearestTo ht hd hy hy' hu hu' hv (keepLow := keepLow) (takeHigh := takeHigh)
  have hud : 0 ≤ u * d := by positivity
  have hmag_lt : |n| < |u * d| ↔ n < u * d := by rw [abs_of_nonneg hn, abs_of_nonneg hud]
  have hmag_gt : |u * d| < |n| ↔ u * d < n := by rw [abs_of_nonneg hn, abs_of_nonneg hud]
  have heven (hv : (u : Int) % 2 = 0) : patternOf t u % 2 = 0 := by unfold patternOf; omega
  cases rm with
  | up => exact habove ((if_pos hn).mp h)
  | down => exact hbelow ((if_pos hn).mp h)
  | ceiling => exact habove h
  | floor => exact hbelow h
  | halfUp => exact hnearest h.1 (fun hv hlt => hlt.not_gt (hmag_lt.mp (h.2 hv))) (fun _ _ => trivial)
  | halfDown => exact hnearest h.1 (fun _ _ => trivial) (fun hv hlt => hlt.not_gt (hmag_gt.mp (h.2 hv)))
  | halfEven => exact hnearest h.1 (fun hv _ => heven (h.2 hv)) (fun hv _ => heven (h.2 hv))
  | halfCeiling => exact hnearest h.1 (fun hv hlt => absurd (h.2 hv) hlt.not_gt) (fun _ _ => rfl)
  | halfFloor => exact hnearest h.1 (fun _ _ => rfl) (fun hv hlt => absurd (h.2 hv) hlt.not_gt)
  | unnecessary =>
    have hd' : (d : ℚ) ≠ 0 := by exact_mod_cast hd.ne'
    have hquot : (n : ℚ) / d = u := (div_eq_iff hd').mpr (by exact_mod_cast h)
    rw [hquot]
    exact magnitudeOf_patternOf (by omega) hu hu'

end

/-! ## The sign apart (R113) -/

/-- The mode that rounds a magnitude as `rm` rounds the value of that magnitude and sign (R120). -/
def magnitudeMode (negative : Bool) (rm : RoundingMode) : RoundingMode := if negative then mirror rm else rm

theorem isRoundedPattern_magnitudeMode_iff (rm : RoundingMode) (negative : Bool) (x : ℚ) (m : Nat) :
    IsRoundedPattern (magnitudeMode negative rm) false x m ↔ IsRoundedPattern rm negative x m := by
  cases negative with
  | false => rfl
  | true => cases rm <;> simp [magnitudeMode, mirror, IsRoundedPattern]

/-- The magnitude of a rounded quotient is its magnitude, rounded. -/
theorem isRoundedQuotient_natAbs_of_roundDiv {n d v : Int} {rm : RoundingMode} (hd : 0 < d) (h : roundDiv n d rm = .ok v) :
    IsRoundedQuotient (magnitudeMode (decide (n < 0)) rm) |n| d v.natAbs := by
  have hbetween := roundDiv_between hd h
  rw [roundDiv_eq_ok_iff rm hd.ne', isRounding_iff_of_pos hd] at h
  rcases lt_or_ge n 0 with hn | hn
  · have hv : (v.natAbs : Int) = -v := by omega
    rw [decide_eq_true hn, abs_of_neg hn, hv]
    exact (isRoundedQuotient_neg_iff rm (neg_pos.mpr hn)).mp (by rwa [neg_neg])
  · have hv : (v.natAbs : Int) = v := by omega
    rw [decide_eq_false hn.not_gt, abs_of_nonneg hn, hv]
    exact h

/-! ## The significand at its unit (R214) -/

/-- The exponent of the unit TODBL rounds `a * 10^-k` at, from which the value has 53 bits. -/
def unitExponent (a : Int) (k : Nat) : Int := binaryExponent a k - 52

/-- The significand's quotient is one rounded quotient, of which at most one power of two is not 1. -/
theorem significand_eq_roundDiv (a : Int) (k : Nat) (t : Int) (rm : RoundingMode) :
    significand a k t rm = roundDiv (a * 2 ^ (-t).toNat) (10 ^ k * 2 ^ t.toNat) rm := by
  unfold significand
  split
  · next ht =>
    rw [Int.toNat_of_nonpos (neg_nonpos.mpr ht), pow_zero, mul_one]
    rfl
  · next ht =>
    rw [Int.toNat_of_nonpos (not_le.mp ht).le, pow_zero, mul_one]
    rfl

theorem significand_eq_error_iff {a : Int} {k : Nat} {t : Int} {rm : RoundingMode} {e : Err} :
    significand a k t rm = .error e ↔
      e = .inexact ∧ rm = .unnecessary ∧ ¬ (10 : Int) ^ k * 2 ^ t.toNat ∣ a * 2 ^ (-t).toNat := by
  rw [significand_eq_roundDiv]
  exact roundDiv_eq_error_iff rm e (by positivity)

theorem two_zpow_eq_div (t : Int) : (2 : ℚ) ^ t = 2 ^ t.toNat / 2 ^ (-t).toNat := by
  rw [← zpow_natCast, ← zpow_natCast, ← zpow_sub₀ two_ne_zero]
  congr 1
  omega

/-- The significand's quotient, as a rational number, is the magnitude over the unit. -/
theorem magnitude_div_unit (a : Int) (k : Nat) (t : Int) :
    (((|a| * 2 ^ (-t).toNat : Int) : ℚ)) / ((10 ^ k * 2 ^ t.toNat : Int) : ℚ) = |(a : ℚ)| / 10 ^ k / 2 ^ t := by
  rw [two_zpow_eq_div]
  push_cast
  field_simp

section
variable {a : Int} {k : Nat} (ha : a ≠ 0) (hk : k ≤ 18)
include ha hk

/-- `binaryExponent` reads the leading bit of `|a| * 2^60 / 10^k`, which is not 0 because 10^k is below 2^60. -/
theorem log2_bounds :
    2 ^ Nat.log2 (a.natAbs * 2 ^ 60 / 10 ^ k) * 10 ^ k ≤ a.natAbs * 2 ^ 60 ∧
      a.natAbs * 2 ^ 60 < 2 ^ (Nat.log2 (a.natAbs * 2 ^ 60 / 10 ^ k) + 1) * 10 ^ k := by
  have hpow : 10 ^ k ≤ 10 ^ 18 := Nat.pow_le_pow_right (by norm_num) hk
  have hpos : 0 < 10 ^ k := by positivity
  have hne : a.natAbs * 2 ^ 60 / 10 ^ k ≠ 0 := (Nat.div_pos (by omega) hpos).ne'
  exact ⟨(Nat.le_div_iff_mul_le hpos).mp (Nat.log2_self_le hne), (Nat.div_lt_iff_lt_mul hpos).mp Nat.lt_log2_self⟩

/-- The value has 53 bits before the point at its unit. -/
theorem magnitude_div_unit_bounds :
    (2 : ℚ) ^ 52 ≤ |(a : ℚ)| / 10 ^ k / 2 ^ unitExponent a k ∧ |(a : ℚ)| / 10 ^ k / 2 ^ unitExponent a k < 2 ^ 53 := by
  obtain ⟨hle, hlt⟩ := log2_bounds ha hk
  generalize hL : Nat.log2 (a.natAbs * 2 ^ 60 / 10 ^ k) = L at hle hlt
  have hunit : unitExponent a k = (L : Int) - (112 : Nat) := by
    rw [unitExponent, binaryExponent, hL]
    ring
  have habs : |(a : ℚ)| = (a.natAbs : ℚ) := by rw [← Int.cast_abs, Int.abs_eq_natAbs, Int.cast_natCast]
  have hle' : (2 : ℚ) ^ L * 10 ^ k ≤ a.natAbs * 2 ^ 60 := by exact_mod_cast hle
  have hlt' : (a.natAbs : ℚ) * 2 ^ 60 < 2 ^ (L + 1) * 10 ^ k := by exact_mod_cast hlt
  rw [hunit, zpow_sub₀ two_ne_zero, zpow_natCast, zpow_natCast, habs, div_div, le_div_iff₀ (by positivity),
    div_lt_iff₀ (by positivity)]
  rw [pow_succ (2 : ℚ) L] at hlt'
  constructor <;> linarith

/-- The unit of a nonzero operand lies between 2^-112 and 2^11; at 2^11 the operand is INT64_MIN at scale 0. -/
theorem unitExponent_bounds (hmax : |a| ≤ 2 ^ 63) :
    -112 ≤ unitExponent a k ∧ unitExponent a k ≤ 11 ∧
      (unitExponent a k = 11 → |(a : ℚ)| / 10 ^ k / 2 ^ unitExponent a k ≤ 2 ^ 52) := by
  obtain ⟨hle, -⟩ := magnitude_div_unit_bounds ha hk
  have hone : (1 : ℚ) ≤ 10 ^ k := one_le_pow₀ (by norm_num)
  have hx : |(a : ℚ)| / 10 ^ k ≤ 2 ^ 63 := (div_le_self (abs_nonneg _) hone).trans (by exact_mod_cast hmax)
  have hlow : -112 ≤ unitExponent a k := by
    unfold unitExponent binaryExponent
    omega
  have hhigh : (2 : ℚ) ^ (52 + unitExponent a k) ≤ 2 ^ (63 : Int) := by
    rw [zpow_add₀ two_ne_zero]
    exact ((le_div_iff₀ (zpow_pos two_pos _)).mp hle).trans hx
  have hle11 := (zpow_le_zpow_iff_right₀ one_lt_two).mp hhigh
  refine ⟨hlow, by omega, fun h => ?_⟩
  rw [h, div_le_iff₀ (by positivity)]
  exact hx.trans (by norm_num)

/-- The rounded significand: from 2^52 to 2^53, and the pattern of the rounded value. -/
theorem isRoundedPattern_of_significand (hmax : |a| ≤ 2 ^ 63) {rm : RoundingMode} {sg : Int}
    (h : significand a k (unitExponent a k) rm = .ok sg) :
    2 ^ 52 ≤ sg.natAbs ∧ sg.natAbs ≤ 2 ^ 53 ∧ (unitExponent a k = 11 → sg.natAbs ≤ 2 ^ 52) ∧
      IsRoundedPattern rm (decide (a < 0)) (|(a : ℚ)| / 10 ^ k) (patternOf (unitExponent a k) sg.natAbs) := by
  obtain ⟨hy, hy'⟩ := magnitude_div_unit_bounds ha hk
  obtain ⟨hlow, -, htop⟩ := unitExponent_bounds ha hk hmax
  have hratio := magnitude_div_unit a k (unitExponent a k)
  have hpow : (0 : Int) < 2 ^ (-unitExponent a k).toNat := by positivity
  have hd : (0 : Int) < 10 ^ k * 2 ^ (unitExponent a k).toNat := by positivity
  have hneg : a * 2 ^ (-unitExponent a k).toNat < 0 ↔ a < 0 := by
    rw [← not_le, ← not_le, mul_nonneg_iff_of_pos_right hpow]
  rw [significand_eq_roundDiv] at h
  have hq := isRoundedQuotient_natAbs_of_roundDiv hd h
  simp only [hneg, abs_mul, abs_of_pos hpow] at hq
  rw [← hratio] at hy hy' htop
  have hbetween {c : Int} := isRoundedQuotient_between hd hq (b := 2 ^ 52) (c := c) (by exact_mod_cast hy)
  have hrounded := isRoundedPattern_patternOf (t := unitExponent a k) (by omega) hd (by positivity) hy hy' hq
  rw [isRoundedPattern_magnitudeMode_iff, hratio, div_mul_cancel₀ _ (zpow_ne_zero _ two_ne_zero)] at hrounded
  have h53 := hbetween (c := 2 ^ 53) (by exact_mod_cast hy'.le)
  refine ⟨by omega, by omega, fun h11 => ?_, hrounded⟩
  have h52 := hbetween (c := 2 ^ 52) (by exact_mod_cast htop h11)
  omega

end

/-- A significand carried out to 2^53 is the first of the next binade, which is what halving it packs. -/
theorem packDouble_eq_signedPattern (negative : Bool) {sg t : Int} (ht : -112 ≤ t) (ht' : t ≤ 11)
    (h : 2 ^ 52 ≤ sg.natAbs) (h' : sg.natAbs ≤ 2 ^ 53) :
    packDouble negative sg t = signedPattern negative (patternOf t sg.natAbs) := by
  have habs : |sg| = sg.natAbs := Int.abs_eq_natAbs sg
  unfold packDouble
  split
  · next htop =>
    have hexp : t + 1 + 1075 = ((t + 1076).toNat : Int) := by omega
    have hpat : patternOf t sg.natAbs = (t + 1076).toNat * 2 ^ 52 + 0 := by unfold patternOf; omega
    rw [hexp, hpat]
    exact binary64Word_eq_signedPattern negative (f := 0) (by omega) (by norm_num)
  · next htop =>
    have hexp : t + 1075 = ((t + 1075).toNat : Int) := by omega
    have hfrac : |sg| - 2 ^ 52 = ((sg.natAbs - 2 ^ 52 : Nat) : Int) := by omega
    have hpat : patternOf t sg.natAbs = (t + 1075).toNat * 2 ^ 52 + (sg.natAbs - 2 ^ 52) := by unfold patternOf; omega
    rw [hfrac, hpat, hexp, Int.toNat_natCast]
    exact binary64Word_eq_signedPattern negative (by omega) (by omega)

/-- The pattern of a rounded operand is a normal finite one (R214). -/
theorem patternOf_exponent_bounds {t : Int} {u : Nat} (ht : -112 ≤ t) (ht' : t ≤ 11) (h : 2 ^ 52 ≤ u) (h' : u ≤ 2 ^ 53)
    (htop : t = 11 → u ≤ 2 ^ 52) : 963 ≤ patternOf t u / 2 ^ 52 ∧ patternOf t u / 2 ^ 52 ≤ 1086 := by
  unfold patternOf
  omega

/-! ## Exact values -/

/-- A pattern's magnitude is an integer below 2^53 times a power of two. -/
theorem magnitudeOf_eq_mul_zpow (m : Nat) : ∃ (u : Nat) (t : Int), u < 2 ^ 53 ∧ magnitudeOf m = u * 2 ^ t := by
  unfold magnitudeOf
  split
  · exact ⟨_, _, by omega, rfl⟩
  · exact ⟨_, _, by omega, rfl⟩

/-- A magnitude that is a pattern's is an integer number of any unit at which it has 53 bits. -/
theorem magnitudeOf_div_unit {m : Nat} {t : Int} (h : 2 ^ 52 ≤ magnitudeOf m / 2 ^ t) :
    ∃ v : Nat, magnitudeOf m / 2 ^ t = v := by
  obtain ⟨u, t', hu, hm⟩ := magnitudeOf_eq_mul_zpow m
  have hshift : magnitudeOf m / 2 ^ t = u * 2 ^ (t' - t) := by rw [hm, mul_div_assoc, zpow_sub₀ two_ne_zero]
  rw [hshift] at h ⊢
  rcases lt_or_ge t' t with hlt | hle
  · have hhalf : (2 : ℚ) ^ (t' - t) ≤ 2 ^ (-1 : Int) := zpow_le_zpow_right₀ one_le_two (by omega)
    have hu' : (u : ℚ) < 2 ^ 53 := by exact_mod_cast hu
    have hle := mul_le_mul_of_nonneg_left hhalf u.cast_nonneg
    rw [zpow_neg_one] at hle
    linarith
  · obtain ⟨j, hj⟩ := Int.eq_ofNat_of_zero_le (sub_nonneg.mpr hle)
    rw [hj]
    exact ⟨u * 2 ^ j, by push_cast; rw [zpow_natCast]⟩

/-- Where the magnitude of `a * 10^-k` is a pattern's, its significand is exact. -/
theorem dvd_of_magnitudeOf_eq {a : Int} {k : Nat} (ha : a ≠ 0) (hk : k ≤ 18) {m : Nat}
    (hm : magnitudeOf m = |(a : ℚ)| / 10 ^ k) :
    (10 : Int) ^ k * 2 ^ (unitExponent a k).toNat ∣ a * 2 ^ (-unitExponent a k).toNat := by
  obtain ⟨hy, -⟩ := magnitude_div_unit_bounds ha hk
  rw [← hm] at hy
  obtain ⟨v, hv⟩ := magnitudeOf_div_unit hy
  have hd : (((10 : Int) ^ k * 2 ^ (unitExponent a k).toNat : Int) : ℚ) ≠ 0 := by positivity
  rw [hm, ← magnitude_div_unit, div_eq_iff hd] at hv
  have hv' : |a| * 2 ^ (-unitExponent a k).toNat = v * (10 ^ k * 2 ^ (unitExponent a k).toNat) := by exact_mod_cast hv
  have hpow : (0 : Int) < 2 ^ (-unitExponent a k).toNat := by positivity
  have habs : |a * 2 ^ (-unitExponent a k).toNat| = |a| * 2 ^ (-unitExponent a k).toNat := by rw [abs_mul, abs_of_pos hpow]
  rw [← dvd_abs, habs, hv']
  exact dvd_mul_left _ _

/-! ## TODBL (R214) -/

theorem todblResult_zero (f : Fields) : todblResult f 0 = .ok (0, 0) := if_pos (by decide)

theorem todblResult_of_ok {f : Fields} {A : Word} (hA : A.toInt ≠ 0) (hk : f.scale ≤ 18) {sg : Int}
    (h : significand A.toInt f.scale (unitExponent A.toInt f.scale) (generalPolicy f).rm = .ok sg) :
    todblResult f A =
      .ok (signedPattern (decide (A.toInt < 0)) (patternOf (unitExponent A.toInt f.scale) sg.natAbs), 0) := by
  obtain ⟨hlow, hhigh, -⟩ := unitExponent_bounds hA hk (abs_sint64_le A)
  obtain ⟨h1, h2, -, -⟩ := isRoundedPattern_of_significand hA hk (abs_sint64_le A) h
  rw [← packDouble_eq_signedPattern _ hlow hhigh h1 h2]
  rw [unitExponent] at h ⊢
  rw [todblResult, sint64, if_neg hA, h]

theorem todblResult_of_error {f : Fields} {A : Word} (hA : A.toInt ≠ 0) {e : Err}
    (h : significand A.toInt f.scale (unitExponent A.toInt f.scale) (generalPolicy f).rm = .error e) :
    todblResult f A = .error e := by
  rw [unitExponent] at h
  rw [todblResult, sint64, if_neg hA, h]

/-- Settles O56: the rounded significand packs to the rounded pattern, and it is exact where the value is a pattern's. -/
theorem todblAnswers : Obligations.TodblAnswers := by
  intro f s hf
  have hk : f.scale ≤ 18 := by simpa [Fields.wellFormed] using hf
  refine ⟨opcodeOf_eq_opcode _, fun hA => ?_, fun hA => ?_⟩
  · rw [completes_iff, resultOf, hA, todblResult_zero]
    rfl
  generalize hw : s.ins.cmdA = A at hA
  have ha : A.toInt ≠ 0 := mt (toInt_eq_zero_iff _).mp hA
  have hmax : |A.toInt| ≤ 2 ^ 63 := abs_sint64_le A
  intro x negative
  constructor
  · intro hexact
    cases hs : significand A.toInt f.scale (unitExponent A.toInt f.scale) (generalPolicy f).rm with
    | error e =>
      obtain ⟨-, hrm, hdvd⟩ := significand_eq_error_iff.mp hs
      rcases hexact with hne | ⟨m, hm⟩
      · exact absurd hrm hne
      · exact absurd (dvd_of_magnitudeOf_eq ha hk hm) hdvd
    | ok sg =>
      obtain ⟨h1, h2, htop, hpat⟩ := isRoundedPattern_of_significand ha hk hmax hs
      obtain ⟨hlow, hhigh, -⟩ := unitExponent_bounds ha hk hmax
      obtain ⟨hmin, hnormal⟩ := patternOf_exponent_bounds hlow hhigh h1 h2 htop
      refine ⟨_, hmin, hnormal, hpat, ?_⟩
      rw [completes_iff, resultOf, hw, todblResult_of_ok ha hk hs]
      rfl
  · intro hrm hno
    cases hs : significand A.toInt f.scale (unitExponent A.toInt f.scale) (generalPolicy f).rm with
    | error e =>
      obtain ⟨rfl, -⟩ := significand_eq_error_iff.mp hs
      apply completes_failed
      rw [resultOf, hw, todblResult_of_error ha hs]
    | ok sg =>
      obtain ⟨-, -, -, hpat⟩ := isRoundedPattern_of_significand ha hk hmax hs
      rw [hrm] at hpat
      exact absurd hpat (hno _)

/-! ## TODBL, then FROMDBL (R212, R214) -/

/-- An exact significand times its unit is the operand; it has the operand's sign and 53 bits. -/
theorem exact_significand {a : Int} {k : Nat} (ha : a ≠ 0) (hk : k ≤ 18) (hmax : |a| ≤ 2 ^ 63) {sg : Int}
    (h : significand a k (unitExponent a k) .unnecessary = .ok sg) :
    a * 2 ^ (-unitExponent a k).toNat = sg * (10 ^ k * 2 ^ (unitExponent a k).toNat) ∧
      (a < 0 ↔ sg < 0) ∧ 2 ^ 52 ≤ sg.natAbs ∧ sg.natAbs < 2 ^ 53 := by
  obtain ⟨h1, h2, -, hpat⟩ := isRoundedPattern_of_significand ha hk hmax h
  obtain ⟨hlow, -, -⟩ := unitExponent_bounds ha hk hmax
  obtain ⟨-, hy'⟩ := magnitude_div_unit_bounds ha hk
  have hmag : |(a : ℚ)| / 10 ^ k = sg.natAbs * 2 ^ unitExponent a k :=
    (Eq.symm hpat).trans (magnitudeOf_patternOf (t := unitExponent a k) (by omega) h1 h2)
  rw [hmag, mul_div_cancel_right₀ _ (zpow_ne_zero _ two_ne_zero)] at hy'
  have hpow : (0 : Int) < 2 ^ (-unitExponent a k).toNat := by positivity
  have hd : (0 : Int) < 10 ^ k * 2 ^ (unitExponent a k).toNat := by positivity
  rw [significand_eq_roundDiv, roundDiv_eq_ok_iff _ hd.ne', isRounding_unnecessary_iff hd.ne'] at h
  have hsign : 0 ≤ a ↔ 0 ≤ sg := by
    rw [← mul_nonneg_iff_of_pos_right (b := a) hpow, h, mul_nonneg_iff_of_pos_right hd]
  exact ⟨h, by omega, h1, by exact_mod_cast hy'⟩

/-- The pattern of a significand with 53 bits is read back as that significand and its unit. -/
theorem binary64Value_signedPattern {sg t : Int} (ht : -112 ≤ t) (ht' : t ≤ 11) (h : 2 ^ 52 ≤ sg.natAbs)
    (h' : sg.natAbs < 2 ^ 53) :
    binary64Value (binary64Of (signedPattern (decide (sg < 0)) (patternOf t sg.natAbs))) = (sg, t) := by
  have hm : patternOf t sg.natAbs < 2 ^ 63 := by unfold patternOf; omega
  have hexp : patternOf t sg.natAbs / 2 ^ 52 = (t + 1075).toNat := by unfold patternOf; omega
  have hfrac : 2 ^ 52 + patternOf t sg.natAbs % 2 ^ 52 = sg.natAbs := by unfold patternOf; omega
  have hne : (t + 1075).toNat ≠ 0 := by omega
  have hunit : ((t + 1075).toNat : Int) - 1075 = t := by omega
  have hsign : (if decide (sg < 0) = true then -1 else 1) * (sg.natAbs : Int) = sg := by
    rcases lt_or_ge sg 0 with hneg | hpos
    · rw [if_pos (decide_eq_true hneg)]
      omega
    · rw [if_neg (by simpa using hpos)]
      omega
  rw [binary64Value_binary64Of, signField_signedPattern hm, exponentField_signedPattern hm, fractionField_signedPattern hm,
    hexp, hfrac, if_neg hne, if_neg hne, hunit, hsign]

/-- FROMDBL of a pattern whose significand times its unit times 10^k is an operand answers that operand (R212). -/
theorem fromdblResult_of_exact {f : Fields} {A D : Word} {sg t : Int} (hfinite : exponentField D ≠ 2047)
    (hvalue : binary64Value (binary64Of D) = (sg, t)) (h : A.toInt * 2 ^ (-t).toNat = sg * (10 ^ f.scale * 2 ^ t.toNat)) :
    fromdblResult f D = .ok (A, 0) := by
  have hnum : sg * 2 ^ t.toNat * 10 ^ f.scale = A.toInt * 2 ^ (-t).toNat := by rw [h]; ring
  have hfits : fits64 A.toInt = true := fits64_sint64 A
  rw [fromdblResult_of_finite f hfinite, fromdblValue_eq_roundFit, hvalue, hnum, roundFit_mul_self _ (by positivity),
    fit_of_fits hfits, respondWith, respond1, respond2, bits64, BitVec.ofInt_toInt]
  rfl

/-- Settles O57: the pattern of an exact significand is read back as that significand and its unit, of which FROMDBL's quotient
is the operand. -/
theorem exactDoubleRoundTrip : Obligations.ExactDoubleRoundTrip := by
  intro k om p A D hk h
  simp only [resultOf] at h ⊢
  rcases eq_or_ne A.toInt 0 with hA | ha
  · obtain rfl := (toInt_eq_zero_iff A).mp hA
    rw [todblResult_zero] at h
    obtain rfl : 0 = D := congrArg Prod.fst (Except.ok.inj h)
    exact fromdblResult_of_exact (sg := 0) (t := -1074) (by decide) (by decide) (by rw [hA, zero_mul, zero_mul])
  · have hmax : |A.toInt| ≤ 2 ^ 63 := abs_sint64_le A
    obtain ⟨hlow, hhigh, -⟩ := unitExponent_bounds ha hk hmax
    cases hs : significand A.toInt k (unitExponent A.toInt k) .unnecessary with
    | error e =>
      rw [todblResult_of_error (f := ⟨k, .given .unnecessary om⟩) ha hs] at h
      cases h
    | ok sg =>
      obtain ⟨hexact, hneg, h1, h2⟩ := exact_significand ha hk hmax hs
      have hsign : decide (A.toInt < 0) = decide (sg < 0) := decide_eq_decide.mpr hneg
      rw [todblResult_of_ok (f := ⟨k, .given .unnecessary om⟩) ha hk hs, hsign, Except.ok.injEq, Prod.mk.injEq] at h
      obtain ⟨rfl, -⟩ := h
      refine fromdblResult_of_exact (f := ⟨k, p⟩) ?_ (binary64Value_signedPattern hlow hhigh h1 h2) hexact
      have hm : patternOf (unitExponent A.toInt k) sg.natAbs < 2 ^ 63 := by unfold patternOf; omega
      rw [exponentField_signedPattern hm]
      unfold patternOf
      omega

end Sys2Proof.Proofs
